-- ==== Sys2Proof/Config.lean ====
section
/-! DEFINITION. The implementation parameters of 00_scope.md R5 and the types of the Language Table's entries (30_encoding.md R72, R84).
The one parameter that is not declared here is the table itself, `Config.LT`: it stands with its rows in Decode.lean. -/

namespace Sys2Proof

/-- The protection mode (R33). It is not a privilege level (R210). -/
inductive Mode where
  | SAFE
  | UNSAFE
deriving DecidableEq, Repr, Inhabited

namespace Config

/-- Bits in an instruction word (R5). -/
abbrev WORD_BITS : Nat := 16

/-- Registers `r0`..`r15` (R5, R22). -/
abbrev NUM_REGISTERS : Nat := 16

/-- Memory cells, addresses 0..255 (R5, R50). -/
abbrev RAM_SIZE : Nat := 256

/-- Least value a register or cell may hold, inclusive (R5; log 3). -/
abbrev INT_MIN : Int := -32768

/-- Least value above `INT_MIN` that a register or cell may not hold (R5; log 3). -/
abbrev INT_LIM : Int := 65535

/-- Width of an `r` or `z` field (R5). -/
abbrev REG_FIELD_BITS : Nat := 4

/-- Width of an `s` or `u` field (R5). -/
abbrev IMM_FIELD_BITS : Nat := 8

/-- Leading opcode bits before the first operand field (R5, R71). -/
abbrev OPCODE_LEAD_BITS : Nat := 4

/-- The protection mode of a new machine. OPEN: R5, R33 and D15 leave it to whoever creates the machine and choose no
default, so it has no body and nothing can be proved of its value (DESIGN CHOICE, log 1, safe). -/
opaque MODE : Mode

end Config

/-- One character of an operand signature (R72). `n` occurs in no descriptor of the table; the extractor supports it. -/
inductive FieldKind where
  | r
  | s
  | u
  | z
  | n
deriving DecidableEq, Repr

/-- The canonical instruction names, in the order of the table (R2, R75). -/
inductive OpName where
  | halt | read | write | jumpr | setn | loadn | storen | loadr | storer | addn | nop | copy
  | add | neg | sub | mul | div | mod | jumpn | calln | jeqzn | jnezn | jgtzn | jltzn
deriving DecidableEq, Repr

/-- A typed operand as the field extractor gives it (R84). -/
inductive Operand where
  | reg      (i : Nat)
  | signed   (v : Int)
  | unsigned (v : Nat)
deriving DecidableEq, Repr

end Sys2Proof
end

