-- ==== Sys2Proof/Syntax.lean ====
section
/-! DEFINITION. The abstract syntax: one constructor per row of spec/opcode_table.json, in its order (00_scope.md R2,
40_dispatch.md R126). -/

namespace Sys2Proof

/-- An instruction with its operands in signature order, padding removed (R126). Register operands are indices, signed
immediates integers, unsigned immediates natural numbers; `Instr.wf` states their ranges. -/
inductive Instr where
  | halt
  | read   (rX : Nat)
  | write  (rX : Nat)
  | jumpr  (rX : Nat)
  | setn   (rX : Nat) (n : Int)
  | loadn  (rX : Nat) (n : Nat)
  | storen (rX : Nat) (n : Nat)
  | loadr  (rX rY : Nat)
  | storer (rX rY : Nat)
  | addn   (rX : Nat) (n : Int)
  | nop
  | copy   (rX rY : Nat)
  | add    (rX rY rZ : Nat)
  | neg    (rX rY : Nat)
  | sub    (rX rY rZ : Nat)
  | mul    (rX rY rZ : Nat)
  | div    (rX rY rZ : Nat)
  | mod    (rX rY rZ : Nat)
  | jumpn  (n : Nat)
  | calln  (rX : Nat) (n : Nat)
  | jeqzn  (rX : Nat) (n : Nat)
  | jnezn  (rX : Nat) (n : Nat)
  | jgtzn  (rX : Nat) (n : Nat)
  | jltzn  (rX : Nat) (n : Nat)
deriving DecidableEq, Repr

/-- The canonical name of an instruction (R2). -/
def Instr.opName : Instr → OpName
  | .halt => .halt
  | .read _ => .read
  | .write _ => .write
  | .jumpr _ => .jumpr
  | .setn _ _ => .setn
  | .loadn _ _ => .loadn
  | .storen _ _ => .storen
  | .loadr _ _ => .loadr
  | .storer _ _ => .storer
  | .addn _ _ => .addn
  | .nop => .nop
  | .copy _ _ => .copy
  | .add _ _ _ => .add
  | .neg _ _ => .neg
  | .sub _ _ _ => .sub
  | .mul _ _ _ => .mul
  | .div _ _ _ => .div
  | .mod _ _ _ => .mod
  | .jumpn _ => .jumpn
  | .calln _ _ => .calln
  | .jeqzn _ _ => .jeqzn
  | .jnezn _ _ => .jnezn
  | .jgtzn _ _ => .jgtzn
  | .jltzn _ _ => .jltzn

/-- The operands of an instruction, one per non-`z` character of its signature, in signature order (R88, R126). -/
def Instr.operands : Instr → List Operand
  | .halt => []
  | .read x => [.reg x]
  | .write x => [.reg x]
  | .jumpr x => [.reg x]
  | .setn x n => [.reg x, .signed n]
  | .loadn x n => [.reg x, .unsigned n]
  | .storen x n => [.reg x, .unsigned n]
  | .loadr x y => [.reg x, .reg y]
  | .storer x y => [.reg x, .reg y]
  | .addn x n => [.reg x, .signed n]
  | .nop => []
  | .copy x y => [.reg x, .reg y]
  | .add x y z => [.reg x, .reg y, .reg z]
  | .neg x y => [.reg x, .reg y]
  | .sub x y z => [.reg x, .reg y, .reg z]
  | .mul x y z => [.reg x, .reg y, .reg z]
  | .div x y z => [.reg x, .reg y, .reg z]
  | .mod x y z => [.reg x, .reg y, .reg z]
  | .jumpn n => [.unsigned n]
  | .calln x n => [.reg x, .unsigned n]
  | .jeqzn x n => [.reg x, .unsigned n]
  | .jnezn x n => [.reg x, .unsigned n]
  | .jgtzn x n => [.reg x, .unsigned n]
  | .jltzn x n => [.reg x, .unsigned n]

end Sys2Proof
end

