-- ==== Sys2Proof/WellFormed.lean ====
section
/-! DEFINITION. The operand ranges of 30_encoding.md R87, R103, R115, as a check on the abstract syntax. -/

namespace Sys2Proof

/-- A register operand is `0..15` (R87), a signed one `−128..127`, an unsigned one `0..255`. -/
def Operand.wf : Operand → Bool
  | .reg i => decide (i < Config.NUM_REGISTERS)
  | .signed v => decide (-128 ≤ v) && decide (v ≤ 127)
  | .unsigned v => decide (v < 256)

/-- Every operand is in the range its field can hold (R87, R115). -/
def Instr.wf (i : Instr) : Bool := i.operands.all Operand.wf

end Sys2Proof
end

