-- ==== Sys2Proof/Word.lean ====
section
/-! DEFINITION. The instruction word and the plain arithmetic of the spec's notation (00_scope.md R6 to R8). -/

namespace Sys2Proof

/-- An instruction word: `WORD_BITS` bits, 16 (R5, R7, R70). Registers and memory cells are NOT words: they hold exact
integers (R6, R51). -/
abbrev Word := BitVec Config.WORD_BITS

end Sys2Proof
end

