-- ==== Sys2Proof/Decode.lean ====
section
/-! DEFINITION. The Language Table `LT_DEFAULT` and its interface (30_encoding.md R75 to R79), the decoder made of the opcode
matcher and the field extractor (R80 to R92), and the encoder (R113). -/

namespace Sys2Proof

/-! ## Bit fields (00_scope.md R7, R8) -/

/-- `w[hi:lo]`: the unsigned integer made of bits `hi` down to `lo` (R7). -/
def Word.bits (w : Word) (hi lo : Nat) : Nat := (w.toNat >>> lo) % 2 ^ (hi - lo + 1)

/-- `sext_8` (R8). -/
def sext8 (f : Nat) : Int := if 128 ≤ f then (f : Int) - 256 else f

/-- `zext_8` (R8). -/
def zext8 (f : Nat) : Nat := f

/-- `tc8`: the 8-bit field that encodes `v` (R8). -/
def tc8 (v : Int) : Nat := if 0 ≤ v then v.toNat else (v + 256).toNat

/-- `u16`: the residue modulo 65536 as a word (R8). -/
def u16 (v : Int) : Word := BitVec.ofInt Config.WORD_BITS v

/-! ## The Language Table -/

/-- An Instruction Descriptor: canonical name, operand signature, opcode pattern, decode mask (R75). Its place in the
table is its decode precedence. -/
structure Descriptor where
  name    : OpName
  sig     : List FieldKind
  pattern : Word
  mask    : Word
deriving DecidableEq, Repr

/-- Rows 0 to 11 of `LT_DEFAULT` (R75). -/
def languageTableLow : List Descriptor :=
  [ { name := .halt,   sig := [],           pattern := 0x0000#16, mask := 0xFFFF#16 },
    { name := .read,   sig := [.r],         pattern := 0x0001#16, mask := 0xF0FF#16 },
    { name := .write,  sig := [.r],         pattern := 0x0002#16, mask := 0xF0FF#16 },
    { name := .jumpr,  sig := [.r],         pattern := 0x0003#16, mask := 0xF0FF#16 },
    { name := .setn,   sig := [.r, .s],     pattern := 0x1000#16, mask := 0xF000#16 },
    { name := .loadn,  sig := [.r, .u],     pattern := 0x2000#16, mask := 0xF000#16 },
    { name := .storen, sig := [.r, .u],     pattern := 0x3000#16, mask := 0xF000#16 },
    { name := .loadr,  sig := [.r, .r],     pattern := 0x4000#16, mask := 0xF00F#16 },
    { name := .storer, sig := [.r, .r],     pattern := 0x4001#16, mask := 0xF00F#16 },
    { name := .addn,   sig := [.r, .s],     pattern := 0x5000#16, mask := 0xF000#16 },
    { name := .nop,    sig := [],           pattern := 0x6000#16, mask := 0xFFFF#16 },
    { name := .copy,   sig := [.r, .r],     pattern := 0x6000#16, mask := 0xF00F#16 } ]

/-- Rows 12 to 23 of `LT_DEFAULT` (R75). -/
def languageTableHigh : List Descriptor :=
  [ { name := .add,    sig := [.r, .r, .r], pattern := 0x6000#16, mask := 0xF000#16 },
    { name := .neg,    sig := [.r, .z, .r], pattern := 0x7000#16, mask := 0xF0F0#16 },
    { name := .sub,    sig := [.r, .r, .r], pattern := 0x7000#16, mask := 0xF000#16 },
    { name := .mul,    sig := [.r, .r, .r], pattern := 0x8000#16, mask := 0xF000#16 },
    { name := .div,    sig := [.r, .r, .r], pattern := 0x9000#16, mask := 0xF000#16 },
    { name := .mod,    sig := [.r, .r, .r], pattern := 0xA000#16, mask := 0xF000#16 },
    { name := .jumpn,  sig := [.z, .u],     pattern := 0xB000#16, mask := 0xFF00#16 },
    { name := .calln,  sig := [.r, .u],     pattern := 0xB000#16, mask := 0xF000#16 },
    { name := .jeqzn,  sig := [.r, .u],     pattern := 0xC000#16, mask := 0xF000#16 },
    { name := .jnezn,  sig := [.r, .u],     pattern := 0xD000#16, mask := 0xF000#16 },
    { name := .jgtzn,  sig := [.r, .u],     pattern := 0xE000#16, mask := 0xF000#16 },
    { name := .jltzn,  sig := [.r, .u],     pattern := 0xF000#16, mask := 0xF000#16 } ]

/-- `LT_DEFAULT` in decode-precedence order (R75). Its rows are PRESUMED: the spec takes most of them from the published
HMMM table (D1; log 2, unsafe). -/
def languageTable : List Descriptor := languageTableLow ++ languageTableHigh

/-- The parameter `LT` of R5: the table the decoder and the encoder read. This hardware uses `LT_DEFAULT` (D1; log 2). -/
abbrev Config.LT : List Descriptor := languageTable

/-- The width of a field in a signature; `n` takes what is left and is never placed by the encoder (R72). -/
def FieldKind.width : FieldKind → Nat
  | .r => Config.REG_FIELD_BITS
  | .s => Config.IMM_FIELD_BITS
  | .u => Config.IMM_FIELD_BITS
  | .z => Config.REG_FIELD_BITS
  | .n => 0

/-- The bits of a field of width `n` that starts after the first `k` bits of a word (R73). -/
def fieldBits (n k : Nat) : Word :=
  BitVec.ofNat Config.WORD_BITS (2 ^ n - 1) <<< (Config.WORD_BITS - k - n)

/-- The bits of a word that the fields of a signature cover, after the first `k` bits (R73). -/
def fieldMask : List FieldKind → Nat → Word
  | [], _ => 0#16
  | c :: sig, k => fieldBits c.width k ||| fieldMask sig (k + c.width)

/-- The bits covered by the operand fields alone, padding left out (R77 (c)). -/
def operandMask : List FieldKind → Nat → Word
  | [], _ => 0#16
  | .z :: sig, k => operandMask sig (k + Config.REG_FIELD_BITS)
  | c :: sig, k => fieldBits c.width k ||| operandMask sig (k + c.width)

/-- The well-formedness of a descriptor, R77 (a) to (e). -/
def Descriptor.wf (d : Descriptor) : Bool :=
  decide (d.pattern &&& ~~~d.mask = 0#16)
  && decide ((d.sig.map FieldKind.width).sum ≤ Config.WORD_BITS - Config.OPCODE_LEAD_BITS)
  && decide (d.mask &&& operandMask d.sig Config.OPCODE_LEAD_BITS = 0#16)
  && decide (d.pattern &&& fieldMask d.sig Config.OPCODE_LEAD_BITS = 0#16)
  && decide (d.mask &&& 0xF000#16 = 0xF000#16)

/-- The text of a canonical name (R2). -/
def OpName.text : OpName → String
  | .halt => "halt"
  | .read => "read"
  | .write => "write"
  | .jumpr => "jumpr"
  | .setn => "setn"
  | .loadn => "loadn"
  | .storen => "storen"
  | .loadr => "loadr"
  | .storer => "storer"
  | .addn => "addn"
  | .nop => "nop"
  | .copy => "copy"
  | .add => "add"
  | .neg => "neg"
  | .sub => "sub"
  | .mul => "mul"
  | .div => "div"
  | .mod => "mod"
  | .jumpn => "jumpn"
  | .calln => "calln"
  | .jeqzn => "jeqzn"
  | .jnezn => "jnezn"
  | .jgtzn => "jgtzn"
  | .jltzn => "jltzn"

/-- The other spellings of R78. Only `mov` is the source's own; the rest are PRESUMED (log 26). -/
def otherSpellings : List (String × OpName) :=
  [ ("mov", .copy), ("jump", .jumpr), ("call", .calln), ("jeqz", .jeqzn), ("jnez", .jnezn), ("jgtz", .jgtzn),
    ("jltz", .jltzn), ("loadi", .loadr), ("load", .loadr), ("storei", .storer), ("store", .storer) ]

/-- `resolve(name)`: the canonical name for a canonical name or another spelling of it, absent for anything else
(R78, R79). Names are compared exactly, case included: R103 leaves open whether mnemonics are matched case-sensitively,
so that `ADD` is absent is the model's choice (DESIGN CHOICE, log 27). -/
def resolve (name : String) : Option OpName :=
  match Config.LT.find? (fun d => d.name.text == name) with
  | some d => some d.name
  | none => (otherSpellings.find? (fun p => p.1 == name)).map Prod.snd

/-- The descriptor of a canonical name (R75). -/
def descriptorOf (op : OpName) : Option Descriptor := Config.LT.find? (fun d => decide (d.name = op))

/-- `signature(canonicalName)` (R79). -/
def signatureOf (op : OpName) : Option (List FieldKind) := (descriptorOf op).map Descriptor.sig

/-- `opcode(canonicalName)`: pattern and mask (R79). -/
def opcodeOf (op : OpName) : Option (Word × Word) := (descriptorOf op).map (fun d => (d.pattern, d.mask))

/-- `decodePrecedence()` (R79). -/
def decodePrecedence : List OpName := Config.LT.map Descriptor.name

/-! ## The decoder -/

/-- Why the decoder rejects a word: no descriptor matches it (R83). -/
inductive DecodeError where
  | decodeFailure
deriving DecidableEq, Repr

/-- The opcode matcher: the first descriptor in precedence order whose masked bits are its pattern (R81). -/
def matchWord : List Descriptor → Word → Option Descriptor
  | [], _ => none
  | d :: lt, w => if w &&& d.mask = d.pattern then some d else matchWord lt w

/-- The bits of a word in a field of width `n` that starts after the first `k` bits (R84). -/
def fieldAt (w : Word) (n k : Nat) : Nat := Word.bits w (Config.WORD_BITS - 1 - k) (Config.WORD_BITS - k - n)

/-- The field extractor; `k` is the number of bits consumed so far (R84). -/
def extract (w : Word) : List FieldKind → Nat → List Operand
  | [], _ => []
  | .r :: sig, k => .reg (fieldAt w Config.REG_FIELD_BITS k) :: extract w sig (k + Config.REG_FIELD_BITS)
  | .z :: sig, k => extract w sig (k + Config.REG_FIELD_BITS)
  | .u :: sig, k => .unsigned (zext8 (fieldAt w Config.IMM_FIELD_BITS k)) :: extract w sig (k + Config.IMM_FIELD_BITS)
  | .s :: sig, k => .signed (sext8 (fieldAt w Config.IMM_FIELD_BITS k)) :: extract w sig (k + Config.IMM_FIELD_BITS)
  | .n :: sig, k => .unsigned (Word.bits w (Config.WORD_BITS - 1 - k) 0) :: extract w sig Config.WORD_BITS

/-- Binding the operands to the operation's parameters (R126). A descriptor whose operands do not fit its name, which no
row of the table has, is a decode failure (R128). -/
def Instr.ofOperands : OpName → List Operand → Option Instr
  | .halt, [] => some .halt
  | .read, [.reg x] => some (.read x)
  | .write, [.reg x] => some (.write x)
  | .jumpr, [.reg x] => some (.jumpr x)
  | .setn, [.reg x, .signed n] => some (.setn x n)
  | .loadn, [.reg x, .unsigned n] => some (.loadn x n)
  | .storen, [.reg x, .unsigned n] => some (.storen x n)
  | .loadr, [.reg x, .reg y] => some (.loadr x y)
  | .storer, [.reg x, .reg y] => some (.storer x y)
  | .addn, [.reg x, .signed n] => some (.addn x n)
  | .nop, [] => some .nop
  | .copy, [.reg x, .reg y] => some (.copy x y)
  | .add, [.reg x, .reg y, .reg z] => some (.add x y z)
  | .neg, [.reg x, .reg y] => some (.neg x y)
  | .sub, [.reg x, .reg y, .reg z] => some (.sub x y z)
  | .mul, [.reg x, .reg y, .reg z] => some (.mul x y z)
  | .div, [.reg x, .reg y, .reg z] => some (.div x y z)
  | .mod, [.reg x, .reg y, .reg z] => some (.mod x y z)
  | .jumpn, [.unsigned n] => some (.jumpn n)
  | .calln, [.reg x, .unsigned n] => some (.calln x n)
  | .jeqzn, [.reg x, .unsigned n] => some (.jeqzn x n)
  | .jnezn, [.reg x, .unsigned n] => some (.jnezn x n)
  | .jgtzn, [.reg x, .unsigned n] => some (.jgtzn x n)
  | .jltzn, [.reg x, .unsigned n] => some (.jltzn x n)
  | _, _ => none

/-- What the decoder makes of the matcher's answer (R88): a miss is a decode failure (R83), a hit is extracted. -/
def decodeHit (w : Word) : Option Descriptor → Except DecodeError Instr
  | none => .error .decodeFailure
  | some d =>
    match Instr.ofOperands d.name (extract w d.sig Config.OPCODE_LEAD_BITS) with
    | none => .error .decodeFailure
    | some i => .ok i

/-- The decoder for a given table: matcher, then extractor (R88). It reads no machine state (R80). -/
def decodeWith (lt : List Descriptor) (w : Word) : Except DecodeError Instr := decodeHit w (matchWord lt w)

/-- `Decode(w)` under `LT = LT_DEFAULT` (R88). -/
def decode (w : Word) : Except DecodeError Instr := decodeWith Config.LT w

/-! ## The encoder -/

/-- A value placed in a field of width `n` that starts after the first `k` bits (R113). -/
def placeAt (v n k : Nat) : Word := BitVec.ofNat Config.WORD_BITS v <<< (Config.WORD_BITS - k - n)

/-- Placing the operand values in the fields of a signature, after the first `k` bits (R113). -/
def placeFields : List FieldKind → List Operand → Nat → Word
  | .r :: sig, .reg i :: ops, k => placeAt i Config.REG_FIELD_BITS k ||| placeFields sig ops (k + Config.REG_FIELD_BITS)
  | .s :: sig, .signed v :: ops, k => placeAt (tc8 v) Config.IMM_FIELD_BITS k ||| placeFields sig ops (k + Config.IMM_FIELD_BITS)
  | .u :: sig, .unsigned v :: ops, k => placeAt (tc8 v) Config.IMM_FIELD_BITS k ||| placeFields sig ops (k + Config.IMM_FIELD_BITS)
  | .z :: sig, ops, k => placeFields sig ops (k + Config.REG_FIELD_BITS)
  | _, _, _ => 0#16

/-- `Encode(d, values)` of R113: the field word OR the pattern. -/
def encodeWith (d : Descriptor) (ops : List Operand) : Word := placeFields d.sig ops Config.OPCODE_LEAD_BITS ||| d.pattern

/-- The word of a well-formed instruction (R113). Every name has a row in the table, so the first arm is never taken. -/
def encode (i : Instr) : Word :=
  match descriptorOf i.opName with
  | none => 0#16
  | some d => encodeWith d i.operands

/-- The operand tuples whose word a more specific row takes (R82, R91): they decode to another name. -/
def Instr.overlapped : Instr → Bool
  | .copy x y => decide (x = 0) && decide (y = 0)
  | .add _ _ z => decide (z = 0)
  | .sub _ y _ => decide (y = 0)
  | .calln x _ => decide (x = 0)
  | _ => false

/-- The instruction the decoder reads from a table word: the low 16 bits are the one word an instruction has (R70). -/
def decodeTableWord (nbits w : Nat) : Option Instr :=
  match decode (BitVec.ofNat Config.WORD_BITS (w % 2 ^ nbits)) with
  | .ok i => some i
  | .error _ => none

end Sys2Proof
end

