-- ==== Sys2Proof/Machine/State.lean ====
section
/-! DEFINITION. The machine state of 10_state.md R20 as plain data, the fault kinds of 60_exceptions.md R190, and the state
after creation (70_reset_and_hazards.md R231). -/

namespace Sys2Proof.Machine

/-- The run state (R32). READY and RUN are together the active states. -/
inductive RunState where
  | EMPTY
  | READY
  | RUN
  | WAIT
  | HALT
  | ERROR
deriving DecidableEq, Repr

/-- The eight fault kinds of R190 with the info they record. A fault of this hardware does not stop the model: the step
TAKES it (`State.takeFault`, R200) and answers a next state whose `state` is ERROR and whose error stream names the kind
(DESIGN CHOICE, log 6, safe). So these values travel inside the accessors and stand in `State.errors`; no step ends in
`Host.Outcome.fault`. -/
inductive Fault where
  /-- Raised by the register accessors for an index outside 0..15 (R191). Safe: taken as the spec says. -/
  | invalidRegister (i : Int)
  /-- Raised by the memory accessors for an address outside 0..255 (R192). Safe: taken as the spec says. -/
  | invalidAddress (a : Int)
  /-- Raised by the register and memory setters for a value that is not `VALID` (R193). Safe: taken as the spec says. -/
  | integerOutOfRange (v : Int)
  /-- Raised by `SetPc` and `Jump` for a bad target (R194). Safe: taken as the spec says. -/
  | invalidJumpTarget (t : Int)
  /-- Raised by the instruction cycle in SAFE mode for a `pc` outside the code segment (R195). Safe. -/
  | fetchOutsideCode (pc : Nat)
  /-- Raised by the instruction cycle when no descriptor matches the fetched cell (R196). Safe. -/
  | decodeFailure (ir : Int)
  /-- Raised by `div` and `mod` for a zero divisor (R197). Safe. -/
  | divisionByZero
  /-- Raised by the memory setter in SAFE mode for an address inside the code segment (R198). Safe. -/
  | codeSegmentWrite (a : Int)
deriving DecidableEq, Repr

/-- Why a step has no meaning. -/
inductive Refusal where
  /-- Raised by an arm of `exec` whose instruction is not modelled yet; no arm is. Safe. -/
  | notModelled (mnemonic : String)
deriving DecidableEq, Repr

/-- A reversible micro-edit of the undo log: what was changed, and its previous value (R45, R218). -/
inductive Edit where
  | register (i : Nat) (previous : Int)
  | ram      (a : Nat) (previous : Int)
  | pc       (previous : Nat)
  | lastPc   (previous : Nat)
  | ir       (previous : Int)
  | state    (previous : RunState)
deriving DecidableEq, Repr

/-- A memory cell: its address and the integer it holds. Cells are integers, not bytes (R51, R57; log 4). -/
abbrev Cell := Nat × Int

/-- Memory as a list of cells in canonical form (`Memory.wf` in Ops.lean): addresses strictly rising, no entry equal to
what an unlisted address reads as (log 4). -/
abbrev Memory := List Cell

/-- What an unlisted cell reads as: the reset contents, 0 (R43, R231). -/
abbrev unlistedCell : Int := 0

/-- The whole machine state (R20), and the two event streams that leave the block (R41), which the model keeps here
(log 7). -/
structure State where
  /-- `registers[0..15]` (R22). -/
  registers : Vector Int Config.NUM_REGISTERS
  /-- `ram[0..255]` (R50). -/
  ram : Memory
  /-- Address of the next instruction (R29). -/
  pc : Nat
  /-- Address of the instruction last started (R36). -/
  lastPc : Nat
  /-- The last fetched raw cell (R37). -/
  ir : Int
  /-- Number of instruction words the last accepted load installed (R34). -/
  codeSegmentBoundary : Nat
  /-- The run state (R32). -/
  state : RunState
  /-- SAFE or UNSAFE, constant for the life of the machine (R33). -/
  mode : Mode
  /-- The register captured by the last `read` (R38). -/
  readTarget : Option Nat
  /-- The undo log: groups of edits, newest group first, newest edit first (R45, R218). -/
  undoLog : List (List Edit)
  /-- The output stream, oldest first (R41). -/
  output : List Int
  /-- The error stream, oldest first (R41, R199). -/
  errors : List Fault
deriving DecidableEq, Repr

/-- A new machine (R231, R43 column "at creation"): EMPTY, everything 0, no program, `mode = MODE`. -/
def State.reset : State :=
  { registers := Vector.replicate Config.NUM_REGISTERS 0
    ram := []
    pc := 0
    lastPc := 0
    ir := 0
    codeSegmentBoundary := 0
    state := .EMPTY
    mode := Config.MODE
    readTarget := none
    undoLog := []
    output := []
    errors := [] }

end Sys2Proof.Machine
end

