-- ==== Sys2Proof/Machine/Ops.lean ====
section
/-! DEFINITION. The named operations over registers, memory, `pc`, the run state and the undo log: the guarded accessors
(10_state.md R24, R25, R30; 20_memory.md R54, R55), the jump primitive (44_control_transfer.md R175), fault entry (60_exceptions.md R200)
and `stepBackward` beside it (R219, R220). -/

namespace Sys2Proof.Machine

/-! ## Values -/

/-- `VALID(v)` (R8): what a register or a cell may hold. -/
abbrev VALID (v : Int) : Prop := Config.INT_MIN ≤ v ∧ v < Config.INT_LIM

/-- The quotient truncated toward zero (R8, R165). -/
def tdiv (a b : Int) : Int := Int.tdiv a b

/-- The remainder of the truncated quotient (R8, R166). -/
def tmod (a b : Int) : Int := a - b * tdiv a b

/-! ## Memory as data (R50, R51) -/

/-- Addresses strictly rise from `lo` on, and no entry is what an unlisted cell reads as. -/
def Memory.wfFrom : Nat → Memory → Bool
  | _, [] => true
  | lo, (a, v) :: m => decide (lo ≤ a) && decide (v ≠ unlistedCell) && Memory.wfFrom (a + 1) m

/-- The canonical form of memory (log 4). -/
def Memory.wf (m : Memory) : Bool := Memory.wfFrom 0 m

/-- The content of the cell at `a`. -/
def Memory.read : Memory → Nat → Int
  | [], _ => unlistedCell
  | (b, v) :: m, a => if a = b then v else Memory.read m a

/-- Memory with the cell at `a` holding `v`, in canonical form if it was. -/
def Memory.write : Memory → Nat → Int → Memory
  | [], a, v => if v = unlistedCell then [] else [(a, v)]
  | (b, u) :: m, a, v =>
    if a < b then (if v = unlistedCell then (b, u) :: m else (a, v) :: (b, u) :: m)
    else if a = b then (if v = unlistedCell then m else (a, v) :: m)
    else (b, u) :: Memory.write m a v

/-- The memory that holds `words` from address `a` on and reads as reset everywhere else (R232). -/
def Memory.ofWordsFrom : Nat → List Int → Memory
  | _, [] => []
  | a, v :: words =>
    if v = unlistedCell then Memory.ofWordsFrom (a + 1) words else (a, v) :: Memory.ofWordsFrom (a + 1) words

/-- The memory with every cell from `n` on zeroed (R236). -/
def Memory.keepBelow (n : Nat) (m : Memory) : Memory := m.filter (fun c => decide (c.1 < n))

/-! ## Registers as data (R22, R23) -/

/-- What register `i` reads as; register 0 is hard-wired to 0 (R23). Indices above 15 are never asked for: `getReg` guards
them (R24). -/
def State.reg (s : State) (i : Nat) : Int := if i = 0 then 0 else s.registers.getD i 0

/-! ## Logged updates: every mutation a step makes goes through one of these (R130, R218) -/

/-- Adds an edit to the newest group of the log, opening one if there is none. -/
def pushEdit (e : Edit) : List (List Edit) → List (List Edit)
  | [] => [[e]]
  | g :: gs => (e :: g) :: gs

/-- Opens an undo mark: an empty newest group (R122, R218). -/
def State.openMark (s : State) : State := { s with undoLog := [] :: s.undoLog }

def State.putRegister (i : Nat) (v : Int) (s : State) : State :=
  { s with registers := s.registers.setIfInBounds i v,
           undoLog := pushEdit (.register i (s.registers.getD i 0)) s.undoLog }

def State.putRam (a : Nat) (v : Int) (s : State) : State :=
  { s with ram := Memory.write s.ram a v, undoLog := pushEdit (.ram a (Memory.read s.ram a)) s.undoLog }

def State.putPc (t : Nat) (s : State) : State :=
  { s with pc := t, undoLog := pushEdit (.pc s.pc) s.undoLog }

def State.putLastPc (t : Nat) (s : State) : State :=
  { s with lastPc := t, undoLog := pushEdit (.lastPc s.lastPc) s.undoLog }

def State.putIr (v : Int) (s : State) : State :=
  { s with ir := v, undoLog := pushEdit (.ir s.ir) s.undoLog }

def State.putState (r : RunState) (s : State) : State :=
  { s with state := r, undoLog := pushEdit (.state s.state) s.undoLog }

/-- `readTarget <- rX` (R141). The undo log does not record it (R218, R221; log 20). -/
def State.putReadTarget (i : Nat) (s : State) : State := { s with readTarget := some i }

/-- `out(v)`: one call of the output callback (R142). -/
def State.emit (v : Int) (s : State) : State := { s with output := s.output ++ [v] }

/-- READY and RUN are the active states (R32). -/
def RunState.isActive : RunState → Bool
  | .READY => true
  | .RUN => true
  | .EMPTY => false
  | .WAIT => false
  | .HALT => false
  | .ERROR => false

/-! ## Guarded accessors -/

/-- `x[i]` (R24). -/
def getReg (i : Int) (s : State) : Except Fault Int :=
  if 0 ≤ i ∧ i < (Config.NUM_REGISTERS : Int) then .ok (s.reg i.toNat) else .error (.invalidRegister i)

/-- `x[i] <- v` (R25): index, then value, then the silent drop for register 0 (D6). -/
def setReg (i v : Int) (s : State) : Except Fault State :=
  if ¬ (0 ≤ i ∧ i < (Config.NUM_REGISTERS : Int)) then .error (.invalidRegister i)
  else if ¬ VALID v then .error (.integerOutOfRange v)
  else if i = 0 then .ok s
  else .ok (s.putRegister i.toNat v)

/-- `MemRead(a, 1)` (R54). -/
def memRead (a : Int) (s : State) : Except Fault Int :=
  if 0 ≤ a ∧ a < (Config.RAM_SIZE : Int) then .ok (Memory.read s.ram a.toNat) else .error (.invalidAddress a)

/-- `a` lies inside the code segment and the mode protects it (R33, R61). The bound is tested first, so that the mode is
asked for only where it matters. -/
def State.protectsCell (s : State) (a : Int) : Bool := decide (a < (s.codeSegmentBoundary : Int)) && decide (s.mode = .SAFE)

/-- `MemWrite(a, 1, v)` (R55): address, then value, then the SAFE-mode code-segment test (D7). -/
def memWrite (a v : Int) (s : State) : Except Fault State :=
  if ¬ (0 ≤ a ∧ a < (Config.RAM_SIZE : Int)) then .error (.invalidAddress a)
  else if ¬ VALID v then .error (.integerOutOfRange v)
  else if s.protectsCell a then .error (.codeSegmentWrite a)
  else .ok (s.putRam a.toNat v)

/-- `SetPc(t)` (R30): the `[0, 256)` bound and nothing else (C2, D4). -/
def setPc (t : Int) (s : State) : Except Fault State :=
  if 0 ≤ t ∧ t < (Config.RAM_SIZE : Int) then .ok (s.putPc t.toNat) else .error (.invalidJumpTarget t)

/-- In SAFE mode, `t` is past the code segment (R33). -/
def State.outsideCode (s : State) (t : Int) : Bool := decide ((s.codeSegmentBoundary : Int) ≤ t) && decide (s.mode = .SAFE)

/-- `Jump(t)` (R175): the `[0, 256)` bound, then the SAFE-mode boundary. -/
def jump (t : Int) (s : State) : Except Fault State :=
  if ¬ (0 ≤ t ∧ t < (Config.RAM_SIZE : Int)) then .error (.invalidJumpTarget t)
  else if s.outsideCode t then .error (.invalidJumpTarget t)
  else .ok (s.putPc t.toNat)

/-! ## Fault entry and its undoing -/

/-- Reverse-applies one edit (R219). -/
def Edit.revert : Edit → State → State
  | .register i v, s => { s with registers := s.registers.setIfInBounds i v }
  | .ram a v, s => { s with ram := Memory.write s.ram a v }
  | .pc p, s => { s with pc := p }
  | .lastPc p, s => { s with lastPc := p }
  | .ir v, s => { s with ir := v }
  | .state r, s => { s with state := r }

/-- Reverse-applies a group of edits, newest first. -/
def revertGroup : List Edit → State → State
  | [], s => s
  | e :: g, s => revertGroup g (e.revert s)

/-- Pops the newest group of the log and reverse-applies it; with an empty log nothing happens (R219, D23). -/
def State.popMark (s : State) : State :=
  match s.undoLog with
  | [] => s
  | g :: gs => { revertGroup g s with undoLog := gs }

/-- FAULT ENTRY (R200): the step's edits are unwound to its undo mark, `state <- ERROR` is recorded as a group of its own
(R220, D23), and the error stream gets one event. `readTarget` needs no revert: the one instruction that writes it
cannot fault (R141). -/
def State.takeFault (k : Fault) (s : State) : State :=
  let r := s.popMark
  { r with state := .ERROR, undoLog := [.state r.state] :: r.undoLog, errors := r.errors ++ [k] }

/-- `stepBackward()` (R219): undoes the newest group, the ERROR entry of a fault (R220) among them. The event streams are
not recalled (R41). -/
def State.stepBackward (s : State) : State := s.popMark

/-- The state an Operation leaves: its own effect, or fault entry from the state the Operation began in, whose newest
group holds the cycle's own edits, so that nothing of the instruction remains (R200, R201). -/
def State.commit (s : State) (r : Except Fault State) : State :=
  match r with
  | .ok t => t
  | .error k => s.takeFault k

/-- An Operation always ends in a next state (log 6). -/
def finish (s : State) (r : Except Fault State) : Host.Outcome State Fault Refusal := .next (s.commit r)

end Sys2Proof.Machine
end

