-- ==== Sys2Proof/Machine/Cycle.lean ====
section
/-! DEFINITION. The fetch and decode steps of 40_dispatch.md R120 to R125, up to the Operation. -/

namespace Sys2Proof.Machine

/-- Entering a step: a new undo mark is opened and `state <- RUN` (R122, R125). -/
def State.enterStep (s : State) : State := s.openMark.putState .RUN

/-- The SAFE-mode fetch test (R121). The bound is tested first, so that the mode is asked for only where it matters. -/
def fetchTest (s : State) : Except Fault Unit :=
  if s.outsideCode (s.pc : Int) then .error (.fetchOutsideCode s.pc) else .ok ()

/-- Fetch: the raw cell at `pc` goes into `ir` unchanged (R123). -/
def fetchCell (s : State) : Except Fault State := do
  fetchTest s
  let v ← memRead (s.pc : Int) s
  .ok (s.putIr v)

/-- `lastPc <- pc`, then the default advance through `SetPc` (R124). -/
def advancePc (s : State) : Except Fault State := setPc ((s.pc : Int) + 1) (s.putLastPc s.pc)

/-- Fetch, decode of `u16(ir)`, advance (R122, R123). -/
def fetchDecode (s : State) : Except Fault (Instr × State) := do
  let t ← fetchCell s
  match decode (u16 t.ir) with
  | .error _ => .error (.decodeFailure t.ir)
  | .ok i =>
    let u ← advancePc t
    .ok (i, u)

/-- What the cycle leaves for the dispatcher. -/
inductive Prepared where
  /-- Nothing is dispatched: the call is refused, or the cycle faulted. -/
  | done (s : State)
  /-- The instruction to execute, and the state its Operation starts from. -/
  | run (i : Instr) (s : State)
deriving DecidableEq, Repr

/-- `runNextInstruction` up to `Execute` (R120, R122). When the state is not active the call is refused: nothing changes
and no event is emitted (R120, D8; log 5). -/
def prepare (s : State) : Prepared :=
  if s.state.isActive then
    match fetchDecode s.enterStep with
    | .error k => .done (s.enterStep.takeFault k)
    | .ok (i, t) => .run i t
  else .done s

/-- The fetch state of `withFetchWord`: the cell at `pc` holds the word, `pc` is inside the code segment, and the machine
is active. The word 65535 is no `VALID` cell value (R234); the cell −1 reads as that word (R123; log 9). -/
def State.holdFetchWord (s : State) (w : Nat) : State :=
  { s with ram := Memory.write s.ram s.pc (if w = 65535 then -1 else (w : Int)),
           codeSegmentBoundary := max s.codeSegmentBoundary (s.pc + 1),
           state := if s.state.isActive then s.state else .READY }

end Sys2Proof.Machine
end

