-- ==== Sys2Proof/Machine/Operands.lean ====
section
/-! DEFINITION. The operand forms of the instruction set: register, signed immediate, absolute 8-bit address, register-indirect
address, absolute jump target (30_encoding.md R72; 42_data_movement.md R156; 44_control_transfer.md R179). -/

namespace Sys2Proof.Machine

/-- A register operand as a source: a guarded read (R24, R129). -/
def sourceReg (r : Nat) (s : State) : Except Fault Int := getReg (r : Int) s

/-- A register operand as the destination: a guarded write (R25, R129). -/
def destReg (r : Nat) (v : Int) (s : State) : Except Fault State := setReg (r : Int) v s

/-- A signed immediate is the integer itself (R72). -/
def signedImmediate (n : Int) : Int := n

/-- The address of `loadn` and `storen`: the unsigned immediate itself (R156). -/
def absoluteAddress (n : Nat) : Int := (n : Int)

/-- The address of `loadr` and `storer`: the register's value itself (R156). -/
def indirectAddress (r : Nat) (s : State) : Except Fault Int := sourceReg r s

/-- The target of an immediate jump: the absolute cell address (R179). -/
def immediateTarget (n : Nat) : Int := (n : Int)

/-- The target of `jumpr`: the register's value, nothing truncated (R176). -/
def registerTarget (r : Nat) (s : State) : Except Fault Int := sourceReg r s

end Sys2Proof.Machine
end

