-- ==== Sys2Proof/Machine/Flags.lean ====
section
/-! DEFINITION. The machine has no flags and no condition codes (10_state.md R35, 43_arithmetic.md R170). What stands in their place is
the comparison of a register's exact integer with zero at the time a conditional jump executes (44_control_transfer.md section 4). -/

namespace Sys2Proof.Machine

/-- The four conditions of the conditional jumps. -/
inductive Condition where
  | eqz
  | nez
  | gtz
  | ltz
deriving DecidableEq, Repr

/-- Whether a register's value meets a condition (R181 to R184). -/
def Condition.holds : Condition → Int → Bool
  | .eqz, v => decide (v = 0)
  | .nez, v => decide (v ≠ 0)
  | .gtz, v => decide (0 < v)
  | .ltz, v => decide (v < 0)

end Sys2Proof.Machine
end

