-- ==== Sys2Proof/Machine/Arithmetic.lean ====
section
/-! DEFINITION. The arithmetic instructions of 43_arithmetic.md: `addn`, `add`, `sub`, `mul`, `div`, `mod`, `neg`. All arithmetic is exact,
then range-checked by the register setter (R160); sources are read first, then the divisor is tested (R171). -/

namespace Sys2Proof.Machine

/-- A three-register operation: `x[rX] <- f(x[rY], x[rZ])`, where `f` may raise a fault of its own. -/
def threeRegister (f : Int → Int → Except Fault Int) (rX rY rZ : Nat) (s : State) : Except Fault State := do
  let a ← sourceReg rY s
  let b ← sourceReg rZ s
  let v ← f a b
  destReg rX v s

/-- The divisor test of `div` and `mod` (R197), then the operation. -/
def divisorTested (f : Int → Int → Int) (a b : Int) : Except Fault Int :=
  if b = 0 then .error .divisionByZero else .ok (f a b)

/-- `addn rX N` (R161): `x[rX] <- x[rX] + N`. -/
def execAddn (rX : Nat) (n : Int) (s : State) : Host.Outcome State Fault Refusal :=
  finish s (do
    let a ← sourceReg rX s
    destReg rX (a + signedImmediate n) s)

/-- `add rX rY rZ` (R162): `x[rX] <- x[rY] + x[rZ]`. -/
def execAdd (rX rY rZ : Nat) (s : State) : Host.Outcome State Fault Refusal :=
  finish s (threeRegister (fun a b => .ok (a + b)) rX rY rZ s)

/-- `sub rX rY rZ` (R163): `x[rX] <- x[rY] − x[rZ]`. -/
def execSub (rX rY rZ : Nat) (s : State) : Host.Outcome State Fault Refusal :=
  finish s (threeRegister (fun a b => .ok (a - b)) rX rY rZ s)

/-- `mul rX rY rZ` (R164): `x[rX] <- x[rY] · x[rZ]`. -/
def execMul (rX rY rZ : Nat) (s : State) : Host.Outcome State Fault Refusal :=
  finish s (threeRegister (fun a b => .ok (a * b)) rX rY rZ s)

/-- `div rX rY rZ` (R165): the divisor test, then `x[rX] <- tdiv(x[rY], x[rZ])`. -/
def execDiv (rX rY rZ : Nat) (s : State) : Host.Outcome State Fault Refusal :=
  finish s (threeRegister (divisorTested tdiv) rX rY rZ s)

/-- `mod rX rY rZ` (R166): the divisor test, then `x[rX] <- tmod(x[rY], x[rZ])`. -/
def execMod (rX rY rZ : Nat) (s : State) : Host.Outcome State Fault Refusal :=
  finish s (threeRegister (divisorTested tmod) rX rY rZ s)

/-- `neg rX rY` (R168): `x[rX] <- −x[rY]`. -/
def execNeg (rX rY : Nat) (s : State) : Host.Outcome State Fault Refusal :=
  finish s (do
    let a ← sourceReg rY s
    destReg rX (-a) s)

end Sys2Proof.Machine
end

