-- ==== Sys2Proof/Machine/ControlTransfer.lean ====
section
/-! DEFINITION. The control-transfer instructions of 44_control_transfer.md: `jumpr`, `jumpn`, `calln`, `jeqzn`, `jnezn`, `jgtzn`, `jltzn`. `pc`
already holds the instruction's address plus 1 (R122). -/

namespace Sys2Proof.Machine

/-- A conditional jump to an immediate: the target is examined only when the jump is taken (R181, D10). -/
def jumpIf (c : Condition) (rX n : Nat) (s : State) : Except Fault State := do
  let v ← sourceReg rX s
  if c.holds v then jump (immediateTarget n) s else .ok s

/-- `jumpr rX` (R176): `pc <- x[rX]`. -/
def execJumpr (rX : Nat) (s : State) : Host.Outcome State Fault Refusal :=
  finish s (do
    let t ← registerTarget rX s
    jump t s)

/-- `jumpn N` (R177): `pc <- N`. -/
def execJumpn (n : Nat) (s : State) : Host.Outcome State Fault Refusal :=
  finish s (jump (immediateTarget n) s)

/-- `calln rX N` (R180): `x[rX] <- pc`, the already advanced one, then `pc <- N`. -/
def execCalln (rX n : Nat) (s : State) : Host.Outcome State Fault Refusal :=
  finish s (do
    let t ← destReg rX (s.pc : Int) s
    jump (immediateTarget n) t)

/-- `jeqzn rX N` (R181): `if x[rX] = 0: pc <- N`. -/
def execJeqzn (rX n : Nat) (s : State) : Host.Outcome State Fault Refusal :=
  finish s (jumpIf .eqz rX n s)

/-- `jnezn rX N` (R182): `if x[rX] != 0: pc <- N`. -/
def execJnezn (rX n : Nat) (s : State) : Host.Outcome State Fault Refusal :=
  finish s (jumpIf .nez rX n s)

/-- `jgtzn rX N` (R183): `if x[rX] > 0: pc <- N`. -/
def execJgtzn (rX n : Nat) (s : State) : Host.Outcome State Fault Refusal :=
  finish s (jumpIf .gtz rX n s)

/-- `jltzn rX N` (R184): `if x[rX] < 0: pc <- N`. -/
def execJltzn (rX n : Nat) (s : State) : Host.Outcome State Fault Refusal :=
  finish s (jumpIf .ltz rX n s)

end Sys2Proof.Machine
end

