-- ==== Sys2Proof/Machine/DataMovement.lean ====
section
/-! DEFINITION. The data movement instructions of 42_data_movement.md: `setn`, `loadn`, `storen`, `loadr`, `storer`, `copy`. -/

namespace Sys2Proof.Machine

/-- `setn rX N` (R150): `x[rX] <- N`. -/
def execSetn (rX : Nat) (n : Int) (s : State) : Host.Outcome State Fault Refusal :=
  finish s (destReg rX (signedImmediate n) s)

/-- `loadn rX N` (R151): `x[rX] <- MemRead(N, 1)`. -/
def execLoadn (rX n : Nat) (s : State) : Host.Outcome State Fault Refusal :=
  finish s (do
    let v ← memRead (absoluteAddress n) s
    destReg rX v s)

/-- `storen rX N` (R152): `MemWrite(N, 1, x[rX])`. -/
def execStoren (rX n : Nat) (s : State) : Host.Outcome State Fault Refusal :=
  finish s (do
    let v ← sourceReg rX s
    memWrite (absoluteAddress n) v s)

/-- `loadr rX rY` (R153): `a <- x[rY]; x[rX] <- MemRead(a, 1)`. -/
def execLoadr (rX rY : Nat) (s : State) : Host.Outcome State Fault Refusal :=
  finish s (do
    let a ← indirectAddress rY s
    let v ← memRead a s
    destReg rX v s)

/-- `storer rX rY` (R154): `a <- x[rY]; MemWrite(a, 1, x[rX])`. -/
def execStorer (rX rY : Nat) (s : State) : Host.Outcome State Fault Refusal :=
  finish s (do
    let a ← indirectAddress rY s
    let v ← sourceReg rX s
    memWrite a v s)

/-- `copy rX rY` (R155): `x[rX] <- x[rY]`. -/
def execCopy (rX rY : Nat) (s : State) : Host.Outcome State Fault Refusal :=
  finish s (do
    let v ← sourceReg rY s
    destReg rX v s)

end Sys2Proof.Machine
end

