-- ==== Sys2Proof/Machine/SystemIo.lean ====
section
/-! DEFINITION. The system and input/output instructions of 41_system_io.md: `halt`, `read`, `write`, `nop`. In each Operation the common
steps of R122 have run. -/

namespace Sys2Proof.Machine

/-- `halt` (R140): `state <- HALT; SetPc(lastPc)`. -/
def execHalt (s : State) : Host.Outcome State Fault Refusal :=
  finish s (setPc (s.lastPc : Int) (s.putState .HALT))

/-- `read rX` (R141): `readTarget <- rX; state <- WAIT`. The register is written later, by `readInput` (R143). -/
def execRead (rX : Nat) (s : State) : Host.Outcome State Fault Refusal :=
  finish s (.ok ((s.putReadTarget rX).putState .WAIT))

/-- `write rX` (R142): `out(x[rX])`. -/
def execWrite (rX : Nat) (s : State) : Host.Outcome State Fault Refusal :=
  finish s (do
    let v ← sourceReg rX s
    .ok (s.emit v))

/-- `nop` (R145): no effect. -/
def execNop (s : State) : Host.Outcome State Fault Refusal := finish s (.ok s)

end Sys2Proof.Machine
end

