-- ==== Sys2Proof/Machine/Dispatch.lean ====
section
/-! DEFINITION. The dispatcher of 40_dispatch.md R126: a closed case analysis with 24 arms (R128). -/

namespace Sys2Proof.Machine

/-- `Execute(operation, args)` (R126). -/
def exec (i : Instr) (s : State) : Host.Outcome State Fault Refusal :=
  match i with
  | .halt => Sys2Proof.Machine.execHalt s
  | .read rX => Sys2Proof.Machine.execRead rX s
  | .write rX => Sys2Proof.Machine.execWrite rX s
  | .jumpr rX => Sys2Proof.Machine.execJumpr rX s
  | .setn rX n => Sys2Proof.Machine.execSetn rX n s
  | .loadn rX n => Sys2Proof.Machine.execLoadn rX n s
  | .storen rX n => Sys2Proof.Machine.execStoren rX n s
  | .loadr rX rY => Sys2Proof.Machine.execLoadr rX rY s
  | .storer rX rY => Sys2Proof.Machine.execStorer rX rY s
  | .addn rX n => Sys2Proof.Machine.execAddn rX n s
  | .nop => Sys2Proof.Machine.execNop s
  | .copy rX rY => Sys2Proof.Machine.execCopy rX rY s
  | .add rX rY rZ => Sys2Proof.Machine.execAdd rX rY rZ s
  | .neg rX rY => Sys2Proof.Machine.execNeg rX rY s
  | .sub rX rY rZ => Sys2Proof.Machine.execSub rX rY rZ s
  | .mul rX rY rZ => Sys2Proof.Machine.execMul rX rY rZ s
  | .div rX rY rZ => Sys2Proof.Machine.execDiv rX rY rZ s
  | .mod rX rY rZ => Sys2Proof.Machine.execMod rX rY rZ s
  | .jumpn n => Sys2Proof.Machine.execJumpn n s
  | .calln rX n => Sys2Proof.Machine.execCalln rX n s
  | .jeqzn rX n => Sys2Proof.Machine.execJeqzn rX n s
  | .jnezn rX n => Sys2Proof.Machine.execJnezn rX n s
  | .jgtzn rX n => Sys2Proof.Machine.execJgtzn rX n s
  | .jltzn rX n => Sys2Proof.Machine.execJltzn rX n s

end Sys2Proof.Machine
end

