-- ==== Sys2Proof/Machine/Step.lean ====
section
/-! DEFINITION. One step: `runNextInstruction` of 40_dispatch.md R122. -/

namespace Sys2Proof.Machine

/-- `runNextInstruction()` (R120, R122): the cycle, then the dispatcher. -/
def step (s : State) : Host.Outcome State Fault Refusal :=
  match prepare s with
  | .done t => .next t
  | .run i t => exec i t

/-- `s` with an instruction word stored where `step` fetches next, ready to run it (log 9). -/
def State.withFetchWord (s : State) (nbits w : Nat) : State := s.holdFetchWord (w % 2 ^ nbits % 65536)

end Sys2Proof.Machine
end

