-- ==== Sys2Proof/Machine/HostCalls.lean ====
section
/-! DEFINITION. The calls the host may make between steps (00_scope.md R12): `loadBinary`, `resetMachine`, `readInput`, `stepBackward`, the
inspection surface and `instructionFromBinary` (41_system_io.md R143, 70_reset_and_hazards.md R232 to R236, 60_exceptions.md R215, R216). -/

namespace Sys2Proof.Machine

/-- What a host call answers. The spec gives two answers of its own, the refusal of a load (R234) or of an input outside WAIT
(R143, D16, D17) and the validation failure (R143). That a call which is carried out answers `accepted`, that
`resetMachine(false)` in EMPTY answers `refused`, and that a faulting input answers `faulted` with the kind, is the model's
choice (DESIGN CHOICE, log 28): for these the spec gives what the state becomes and no returned value. -/
inductive Reply where
  | accepted
  | refused
  | validationFailure
  | faulted (k : Fault)
deriving DecidableEq, Repr

/-! ## Reading the load image (R233, R234) -/

/-- The lines of a text, split at `\n` (R233). -/
def splitLines : List Char → List (List Char)
  | [] => [[]]
  | c :: cs =>
    match splitLines cs with
    | [] => [[c]]
    | l :: ls => if c = '\n' then [] :: l :: ls else (c :: l) :: ls

/-- A line with its spaces stripped (R233). -/
def stripSpaces (l : List Char) : List Char := l.filter (fun c => decide (c ≠ ' '))

/-- The value of a binary digit. -/
def binaryDigit (c : Char) : Option Nat := if c = '0' then some 0 else if c = '1' then some 1 else none

/-- The value of a decimal digit. -/
def decimalDigit (c : Char) : Option Nat :=
  if 48 ≤ c.toNat ∧ c.toNat ≤ 57 then some (c.toNat - 48) else none

/-- The value of a hexadecimal digit, in either case. -/
def hexDigit (c : Char) : Option Nat :=
  if 48 ≤ c.toNat ∧ c.toNat ≤ 57 then some (c.toNat - 48)
  else if 97 ≤ c.toNat ∧ c.toNat ≤ 102 then some (c.toNat - 87)
  else if 65 ≤ c.toNat ∧ c.toNat ≤ 70 then some (c.toNat - 55)
  else none

/-- The number a string of digits denotes, most significant first, after digits worth `acc`; none if a character is no
digit. -/
def numeral (digit : Char → Option Nat) (base : Nat) : List Char → Nat → Option Nat
  | [], acc => some acc
  | c :: cs, acc =>
    match digit c with
    | none => none
    | some d => numeral digit base cs (acc * base + d)

/-- One non-blank line of an image: exactly 16 binary digits, and a `VALID` word (R234 (a), (c)). -/
def parseImageLine (l : List Char) : Option Int :=
  if l.length = Config.WORD_BITS then
    match numeral binaryDigit 2 l 0 with
    | none => none
    | some n => if VALID (n : Int) then some (n : Int) else none
  else none

/-- The words of the non-blank lines, or none if one line is refused. -/
def parseImageLines : List (List Char) → Option (List Int)
  | [] => some []
  | l :: ls =>
    match parseImageLine l with
    | none => none
    | some w =>
      match parseImageLines ls with
      | none => none
      | some ws => some (w :: ws)

/-- `ParseImage(text)`, with the refusals of R234. A line of nothing but spaces is blank (log 19). -/
def parseImage (text : String) : Option (List Int) :=
  match parseImageLines (((splitLines text.toList).map stripSpaces).filter (fun l => decide (l ≠ []))) with
  | none => none
  | some ws => if ws.length ≤ Config.RAM_SIZE then some ws else none

/-- A bit of a word as a character of the image (R117). -/
def bitChar (w k : Nat) : Char := if w.testBit k then '1' else '0'

/-- The line of one word: four nibbles, most significant bit first, separated by single spaces (R117). -/
def wordLine (w : Nat) : List Char :=
  [bitChar w 15, bitChar w 14, bitChar w 13, bitChar w 12, ' ', bitChar w 11, bitChar w 10, bitChar w 9, bitChar w 8, ' ',
   bitChar w 7, bitChar w 6, bitChar w 5, bitChar w 4, ' ', bitChar w 3, bitChar w 2, bitChar w 1, bitChar w 0]

/-- The load image of a program: one line a word, a newline after each (R117). -/
def imageText (ws : List Nat) : String := String.ofList (ws.flatMap (fun w => wordLine w ++ ['\n']))

/-! ## Load and reset -/

/-- The state an accepted load leaves (R232, R43): the image from address 0, everything else zero, READY. The mode (R238)
and the two event streams (R21) are not touched. -/
def State.loadWords (ws : List Int) (s : State) : State :=
  { State.reset with
    ram := Memory.ofWordsFrom 0 ws
    codeSegmentBoundary := ws.length
    state := .READY
    mode := s.mode
    output := s.output
    errors := s.errors }

/-- `loadBinary(text)` (R232); a refused load changes nothing (R234, D16). The reply `accepted` is the model's choice (DESIGN
CHOICE, log 28). -/
def loadBinary (text : String) (s : State) : Reply × State :=
  match parseImage text with
  | none => (.refused, s)
  | some ws => (.accepted, s.loadWords ws)

/-- `resetMachine(true)` (R235): as at creation, but for the mode and the event streams. -/
def State.clearAll (s : State) : State :=
  { State.reset with mode := s.mode, output := s.output, errors := s.errors }

/-- `resetMachine(false)` outside EMPTY (R236): registers and data zeroed, the code cells kept as they are. -/
def State.restart (s : State) : State :=
  { State.reset with
    ram := Memory.keepBelow s.codeSegmentBoundary s.ram
    codeSegmentBoundary := s.codeSegmentBoundary
    state := .READY
    mode := s.mode
    output := s.output
    errors := s.errors }

/-- `resetMachine(clearProgram)` (R235, R236); with `false` in EMPTY it does nothing (D14). Its replies are the model's choice
(DESIGN CHOICE, log 28). -/
def resetMachine (clearProgram : Bool) (s : State) : Reply × State :=
  if clearProgram then (.accepted, s.clearAll)
  else if s.state = .EMPTY then (.refused, s)
  else (.accepted, s.restart)

/-! ## Input -/

/-- An unsigned literal: `0x` or `0X` and hexadecimal digits, or decimal digits; at least one digit (R102, R143). -/
def parseMagnitude : List Char → Option Nat
  | [] => none
  | '0' :: 'x' :: cs => if cs = [] then none else numeral hexDigit 16 cs 0
  | '0' :: 'X' :: cs => if cs = [] then none else numeral hexDigit 16 cs 0
  | c :: cs => numeral decimalDigit 10 (c :: cs) 0

/-- A signed literal: the Constant forms of R102 (D17; log 18). -/
def parseLiteral : List Char → Option Int
  | '-' :: cs => (parseMagnitude cs).map (fun n : Nat => -(n : Int))
  | cs => (parseMagnitude cs).map (fun n : Nat => (n : Int))

/-- The register write and the return to READY of an accepted input, in an undo group of their own; a value that is not
`VALID` faults (R143, R221, D17, D23). The replies `accepted` and `faulted` are the model's choice (DESIGN CHOICE, log 28). -/
def State.acceptInput (r : Nat) (v : Int) (s : State) : Reply × State :=
  match setReg (r : Int) v s.openMark with
  | .error k => (.faulted k, s.openMark.takeFault k)
  | .ok t => (.accepted, t.putState .READY)

/-- `readInput(text)` (R143). Outside WAIT it is refused (D17). -/
def readInput (text : String) (s : State) : Reply × State :=
  if s.state = .WAIT then
    match parseLiteral text.toList, s.readTarget with
    | none, _ => (.validationFailure, s)
    | some _, none => (.refused, s)
    | some v, some r => s.acceptInput r v
  else (.refused, s)

/-! ## Inspection (R215, R216, R89) -/

/-- The read-only snapshot of R215. -/
structure Snapshot where
  registers : List Int
  ram : List Int
  pc : Nat
  state : RunState
  mode : Mode
deriving DecidableEq, Repr

/-- The inspection surface (R215); it changes nothing. -/
def State.inspect (s : State) : Snapshot :=
  { registers := s.registers.toList
    ram := (List.range Config.RAM_SIZE).map (Memory.read s.ram)
    pc := s.pc
    state := s.state
    mode := s.mode }

/-- An operand as text: `rN`, or the immediate in decimal (R89; log 22). -/
def Operand.text : Operand → String
  | .reg i => "r" ++ toString i
  | .signed v => toString v
  | .unsigned v => toString v

/-- The canonical name, then each operand after one space (R89). -/
def renderInstr (i : Instr) : String :=
  i.operands.foldl (fun t o => t ++ " " ++ Operand.text o) i.opName.text

/-- `instructionFromBinary(word)` (R89, R216); none is the "invalid instruction" indicator (log 22). -/
def instructionFromBinary (w : Word) : Option String :=
  match decode w with
  | .error _ => none
  | .ok i => some (renderInstr i)

/-! ## All the calls together -/

/-- The calls of R12 that may change the machine. -/
inductive HostCall where
  | runNextInstruction
  | loadBinary (text : String)
  | resetMachine (clearProgram : Bool)
  | readInput (text : String)
  | stepBackward
deriving DecidableEq, Repr

/-- The state a host call leaves. A step always answers a next state, so the last arms of the first case are never
taken. -/
def State.afterCall (c : HostCall) (s : State) : State :=
  match c with
  | .runNextInstruction =>
    match step s with
    | .next t => t
    | .fault _ => s
    | .refused _ => s
  | .loadBinary text => (Machine.loadBinary text s).2
  | .resetMachine clear => (Machine.resetMachine clear s).2
  | .readInput text => (Machine.readInput text s).2
  | .stepBackward => s.stepBackward

end Sys2Proof.Machine
end

