-- ==== Sys2Proof/Safety.lean ====
section
/-! DEFINITION. The invariants of 10_state.md R42 and what a safe run is, in the terms the claims use. -/

namespace Sys2Proof.Machine

/-- An edit of the undo log restores a value the machine may hold. -/
def Edit.legal (s : State) : Edit → Prop
  | .register i v => i < 16 ∧ VALID v ∧ (i = 0 → v = 0)
  | .ram a v => a < 256 ∧ VALID v ∧ (s.mode = .SAFE → s.codeSegmentBoundary ≤ a)
  | .pc p => p < 256
  | .lastPc p => p < 256
  | .ir v => VALID v
  | .state r => r ≠ .EMPTY ∧ (r = .WAIT → s.readTarget.isSome = true)

/-- The invariants of R42 (a) to (d) and (f), of R20's value ranges, and of the model's memory form (log 4). -/
structure State.Inv (s : State) : Prop where
  /-- R42 (a), R23. -/
  registerZero : s.registers.getD 0 0 = 0
  /-- R42 (b) for registers. -/
  registersValid : ∀ i, i < 16 → VALID (s.registers.getD i 0)
  /-- Memory is in canonical form (log 4). -/
  ramCanonical : Memory.wf s.ram = true
  /-- R42 (b) for cells, and no cell outside 0..255 (R50). -/
  ramValid : ∀ c ∈ s.ram, c.1 < 256 ∧ VALID c.2
  /-- R42 (c). -/
  pcInRange : s.pc < 256
  /-- R42 (c). -/
  lastPcInRange : s.lastPc < 256
  /-- R37. -/
  irValid : VALID s.ir
  /-- R42 (d). -/
  boundaryInRange : s.codeSegmentBoundary ≤ 256
  /-- R42 (f): in SAFE mode a code cell is a loaded word. -/
  codeUnsigned : s.mode = .SAFE → ∀ a, a < s.codeSegmentBoundary → 0 ≤ Memory.read s.ram a
  /-- R20: `readTarget` is a register index or none. -/
  targetInRange : ∀ r, s.readTarget = some r → r < 16
  /-- R38, R141: a waiting machine has captured a register. -/
  waitingHasTarget : s.state = .WAIT → s.readTarget.isSome = true
  /-- R231, R235: an empty machine holds no program and no log. -/
  emptyHasNothing : s.state = .EMPTY → s.codeSegmentBoundary = 0 ∧ s.undoLog = []
  /-- Every edit of the log can be reverse-applied without leaving these ranges (R218). -/
  logLegal : ∀ g ∈ s.undoLog, ∀ e ∈ g, Edit.legal s e

/-- The states a machine can be in (R32, R42): a new machine of either mode (R231), and whatever the host's calls, steps among
them, make of it. -/
inductive Reachable : State → Prop where
  | created (m : Mode) : Reachable { State.reset with mode := m }
  | call (c : HostCall) (s : State) : Reachable s → Reachable (s.afterCall c)

/-- A run is safe as long as it has not met a fault (R204). -/
def State.isSafe (s : State) : Prop := s.state ≠ .ERROR

/-! ## The words the statements use -/

/-- What a step that faults leaves of the state it started in (R200, R201): everything as before but `state`, the group
of the undo log that records its change (R220), and one error event. -/
def State.afterFault (s : State) (k : Fault) : State :=
  { s with state := .ERROR, undoLog := [.state s.state] :: s.undoLog, errors := s.errors ++ [k] }

/-- Every register reads as before. -/
def State.sameRegisters (s t : State) : Prop := ∀ j, j < 16 → t.reg j = s.reg j

/-- Every cell reads as before. -/
def State.sameMemory (s t : State) : Prop := ∀ a, Memory.read t.ram a = Memory.read s.ram a

/-- What no Operation writes (R34, R36, R37, R39) is as before. -/
def State.sameControl (s t : State) : Prop :=
  t.lastPc = s.lastPc ∧ t.ir = s.ir ∧ t.codeSegmentBoundary = s.codeSegmentBoundary ∧ t.mode = s.mode
    ∧ t.errors = s.errors

/-- A jump target the machine accepts (R175). -/
def State.targetOk (s : State) (t : Int) : Prop :=
  0 ≤ t ∧ t < 256 ∧ (s.mode = .SAFE → t < (s.codeSegmentBoundary : Int))

/-- `i` completes by writing `v` to register `x` (nothing at all for register 0, R25) and changes nothing else. -/
def WritesOnlyRegister (i : Instr) (s : State) (x : Nat) (v : Int) : Prop :=
  ∃ t, exec i s = .next t ∧ t.reg x = (if x = 0 then 0 else v) ∧ (∀ j, j < 16 → j ≠ x → t.reg j = s.reg j)
    ∧ s.sameMemory t ∧ t.pc = s.pc ∧ t.state = s.state ∧ t.readTarget = s.readTarget ∧ t.output = s.output
    ∧ s.sameControl t

/-- `i` completes by storing `v` in the cell at `a` and changes nothing else. -/
def StoresOnlyCell (i : Instr) (s : State) (a : Nat) (v : Int) : Prop :=
  ∃ t, exec i s = .next t ∧ Memory.read t.ram a = v ∧ (∀ b, b ≠ a → Memory.read t.ram b = Memory.read s.ram b)
    ∧ s.sameRegisters t ∧ t.pc = s.pc ∧ t.state = s.state ∧ t.readTarget = s.readTarget ∧ t.output = s.output
    ∧ s.sameControl t

/-- `i` completes with `pc = n` and changes nothing else. -/
def JumpsOnly (i : Instr) (s : State) (n : Nat) : Prop :=
  ∃ t, exec i s = .next t ∧ t.pc = n ∧ s.sameRegisters t ∧ s.sameMemory t ∧ t.state = s.state
    ∧ t.readTarget = s.readTarget ∧ t.output = s.output ∧ s.sameControl t

/-- The address an instruction stores to, as its meaning computes it (R152, R154); none for one that stores nothing or
whose address operand faults. -/
def storedAddress (i : Instr) (s : State) : Option Int :=
  match i with
  | .storen _ n => some (absoluteAddress n)
  | .storer _ rY => (indirectAddress rY s).toOption
  | _ => none

/-- The register an instruction's Operation writes (R26). -/
def destination : Instr → Option Nat
  | .setn x _ => some x
  | .loadn x _ => some x
  | .loadr x _ => some x
  | .addn x _ => some x
  | .copy x _ => some x
  | .add x _ _ => some x
  | .neg x _ => some x
  | .sub x _ _ => some x
  | .mul x _ _ => some x
  | .div x _ _ => some x
  | .mod x _ _ => some x
  | .calln x _ => some x
  | _ => none

/-! ## The texts the host passes, by their grammar -/

/-- `c` is the digit worth `d` in a base up to 16, a hexadecimal letter in either case (R102). -/
def IsDigit (base : Nat) (c : Char) (d : Nat) : Prop :=
  d < base ∧ ("0123456789abcdef".toList[d]? = some c ∨ "0123456789ABCDEF".toList[d]? = some c)

/-- A text of at least one digit and nothing else, with the number it denotes, most significant digit first. -/
inductive IsNumeral (base : Nat) : List Char → Nat → Prop where
  | digit {c : Char} {d : Nat} : IsDigit base c d → IsNumeral base [c] d
  | snoc {cs : List Char} {n : Nat} {c : Char} {d : Nat} :
      IsNumeral base cs n → IsDigit base c d → IsNumeral base (cs ++ [c]) (n * base + d)

/-- A literal without a sign: decimal digits, or `0x` or `0X` and hexadecimal digits (R102). -/
def IsMagnitude (cs : List Char) (n : Nat) : Prop :=
  IsNumeral 10 cs n ∨ ∃ x ds, (x = 'x' ∨ x = 'X') ∧ cs = '0' :: x :: ds ∧ IsNumeral 16 ds n

/-- The two Constant forms `^-?[0-9]+$` and `^-?0[xX][0-9a-fA-F]+$`, with the integer the text denotes (R102; R143 by D17,
log 18). -/
def IsLiteral (cs : List Char) (v : Int) : Prop :=
  ∃ n : Nat, (IsMagnitude cs n ∧ v = n) ∨ (∃ ds, cs = '-' :: ds ∧ IsMagnitude ds n ∧ v = -n)

/-- A line of nothing but spaces, the empty one among them (R233; log 19). -/
def IsBlankLine (l : List Char) : Prop := ∀ c ∈ l, c = ' '

/-- A line that, its spaces stripped, is exactly 16 binary digits, with the number they denote (R233, R234 (a)). -/
def IsWordLine (l : List Char) (n : Nat) : Prop :=
  (l.filter (· ≠ ' ')).length = 16 ∧ IsNumeral 2 (l.filter (· ≠ ' ')) n

/-- The lines of an image with the words they give: a blank line gives none, any other line its word, which is `VALID`
(R233, R234 (a), (c)). -/
inductive IsImage : List (List Char) → List Int → Prop where
  | nil : IsImage [] []
  | blank {l : List Char} {ls : List (List Char)} {ws : List Int} :
      IsBlankLine l → IsImage ls ws → IsImage (l :: ls) ws
  | word {l : List Char} {ls : List (List Char)} {ws : List Int} {n : Nat} :
      IsWordLine l n → VALID n → IsImage ls ws → IsImage (l :: ls) (n :: ws)

/-- The text with these lines, a newline between each two. Every text is one. -/
def textOfLines (lines : List (List Char)) : String := String.ofList (['\n'].intercalate lines)

end Sys2Proof.Machine
end

