-- ==== Sys2Proof/Certificates/Slice0/Obligations.lean ====
section
/-! DEFINITION. The statements for the provers. Each docstring names the rule it formalises; "the spec's own decision Dn" marks a clause
that rests on spec/92_eei_decisions.md, and "log n" one that rests on notes/assumptions/n.md. -/

open Sys2Proof Sys2Proof.Machine

/-! ## The notation and the language table -/

/-- The functions of the notation (R8): `VALID`, `sext_8`, `zext_8`, `tc8`, `tdiv`, `tmod`, `u16`, each by the property the
rule defines it with. -/
def Obligations.NotationFunctionsAreAsDefined : Prop :=
  (∀ v : Int, VALID v ↔ -32768 ≤ v ∧ v ≤ 65534)
  ∧ (∀ f, f < 256 → sext8 f = if f ≥ 128 then (f : Int) - 256 else (f : Int))
  ∧ (∀ f, f < 256 → zext8 f = f)
  ∧ (∀ v : Int, -128 ≤ v → v ≤ 255 → (tc8 v : Int) = if v ≥ 0 then v else v + 256)
  ∧ (∀ a b : Int, b ≠ 0 → (tdiv a b).natAbs = a.natAbs / b.natAbs ∧ 0 ≤ tdiv a b * (a * b))
  ∧ (∀ a b : Int, b ≠ 0 → tmod a b = a - b * tdiv a b ∧ 0 ≤ tmod a b * a)
  ∧ (∀ v : Int, ((u16 v).toNat : Int) = v % 65536)

/-- The table the machine uses, `LT_DEFAULT`, is well-formed (R77 (a) to (e)) and meets what the source fixes of any table
(R76 (a) to (i)). The table's rows are PRESUMED (log 2), and the spec marks R77 as derived. -/
def Obligations.LanguageTableIsWellFormed : Prop :=
  (∀ d ∈ Config.LT, d.wf = true)
  ∧ decodePrecedence = [.halt, .read, .write, .jumpr, .setn, .loadn, .storen, .loadr, .storer, .addn, .nop, .copy, .add,
      .neg, .sub, .mul, .div, .mod, .jumpn, .calln, .jeqzn, .jnezn, .jgtzn, .jltzn]
  ∧ signatureOf .halt = some [] ∧ signatureOf .nop = some [] ∧ signatureOf .add = some [.r, .r, .r]
  ∧ signatureOf .read = some [.r] ∧ signatureOf .neg = some [.r, .z, .r]
  ∧ opcodeOf .nop = some (0x6000#16, 0xFFFF#16) ∧ opcodeOf .copy = some (0x6000#16, 0xF00F#16)
  ∧ opcodeOf .add = some (0x6000#16, 0xF000#16)
  ∧ decode 0x6000#16 = .ok .nop ∧ encode (.add 1 2 3) = 0x6123#16 ∧ decode 0x0101#16 = .ok (.read 1)
  ∧ signatureOf .jumpn = some [.z, .u] ∧ FieldKind.z.width = 4
  ∧ resolve "mov" = some .copy ∧ resolve "copy" = some .copy ∧ resolve "popr" = none

/-- The opcode matcher takes the first descriptor whose masked bits are its pattern, and misses exactly when there is none
(R81). It holds of every table. -/
def Obligations.MatcherTakesTheFirstMatch : Prop :=
  ∀ (lt : List Descriptor) (w : Word),
    (∀ d, matchWord lt w = some d ↔
      ∃ before after, lt = before ++ d :: after ∧ w &&& d.mask = d.pattern
        ∧ ∀ e ∈ before, w &&& e.mask ≠ e.pattern)
    ∧ (matchWord lt w = none ↔ ∀ d ∈ lt, w &&& d.mask ≠ d.pattern)

/-! ## Decode and encode -/

/-- Words written out from the encodings of R75 decode to the instructions they stand for, one of each format and
family at least (95_test_vectors.md V1, V2, V3 and section 2.1). -/
def Obligations.SampleWordsDecode : Prop :=
  decode 0b0000000000000000#16 = .ok .halt
  ∧ decode 0b0000000100000001#16 = .ok (.read 1)
  ∧ decode 0b0000001100000010#16 = .ok (.write 3)
  ∧ decode 0b0000111000000011#16 = .ok (.jumpr 14)
  ∧ decode 0b0001000110000000#16 = .ok (.setn 1 (-128))
  ∧ decode 0b0010101000010100#16 = .ok (.loadn 10 20)
  ∧ decode 0b0100000100100001#16 = .ok (.storer 1 2)
  ∧ decode 0b0101101011111111#16 = .ok (.addn 10 (-1))
  ∧ decode 0b0110000000000000#16 = .ok .nop
  ∧ decode 0b0110000100100000#16 = .ok (.copy 1 2)
  ∧ decode 0b0110000100100011#16 = .ok (.add 1 2 3)
  ∧ decode 0b0111000100000010#16 = .ok (.neg 1 2)
  ∧ decode 0b1011000000000111#16 = .ok (.jumpn 7)
  ∧ decode 0b1011111000001010#16 = .ok (.calln 14 10)
  ∧ decode 0b1111111111111110#16 = .ok (.jltzn 15 254)
  ∧ decode 0b0000000100000000#16 = .error .decodeFailure
  ∧ decode 0b0100000100100010#16 = .error .decodeFailure

/-- The opcode map by the leading four bits, with the place of every operand field (R93, which the spec derives from the
PRESUMED table, log 2). -/
def Obligations.DecodeFollowsTheOpcodeMap : Prop :=
  ∀ w : Word, decode w =
    match Word.bits w 15 12 with
    | 0 =>
      if Word.bits w 7 0 = 0 ∧ Word.bits w 11 8 = 0 then .ok .halt
      else if Word.bits w 7 0 = 1 then .ok (.read (Word.bits w 11 8))
      else if Word.bits w 7 0 = 2 then .ok (.write (Word.bits w 11 8))
      else if Word.bits w 7 0 = 3 then .ok (.jumpr (Word.bits w 11 8))
      else .error .decodeFailure
    | 1 => .ok (.setn (Word.bits w 11 8) (sext8 (Word.bits w 7 0)))
    | 2 => .ok (.loadn (Word.bits w 11 8) (Word.bits w 7 0))
    | 3 => .ok (.storen (Word.bits w 11 8) (Word.bits w 7 0))
    | 4 =>
      if Word.bits w 3 0 = 0 then .ok (.loadr (Word.bits w 11 8) (Word.bits w 7 4))
      else if Word.bits w 3 0 = 1 then .ok (.storer (Word.bits w 11 8) (Word.bits w 7 4))
      else .error .decodeFailure
    | 5 => .ok (.addn (Word.bits w 11 8) (sext8 (Word.bits w 7 0)))
    | 6 =>
      if w = 0x6000#16 then .ok .nop
      else if Word.bits w 3 0 = 0 then .ok (.copy (Word.bits w 11 8) (Word.bits w 7 4))
      else .ok (.add (Word.bits w 11 8) (Word.bits w 7 4) (Word.bits w 3 0))
    | 7 =>
      if Word.bits w 7 4 = 0 then .ok (.neg (Word.bits w 11 8) (Word.bits w 3 0))
      else .ok (.sub (Word.bits w 11 8) (Word.bits w 7 4) (Word.bits w 3 0))
    | 8 => .ok (.mul (Word.bits w 11 8) (Word.bits w 7 4) (Word.bits w 3 0))
    | 9 => .ok (.div (Word.bits w 11 8) (Word.bits w 7 4) (Word.bits w 3 0))
    | 10 => .ok (.mod (Word.bits w 11 8) (Word.bits w 7 4) (Word.bits w 3 0))
    | 11 =>
      if Word.bits w 11 8 = 0 then .ok (.jumpn (Word.bits w 7 0))
      else .ok (.calln (Word.bits w 11 8) (Word.bits w 7 0))
    | 12 => .ok (.jeqzn (Word.bits w 11 8) (Word.bits w 7 0))
    | 13 => .ok (.jnezn (Word.bits w 11 8) (Word.bits w 7 0))
    | 14 => .ok (.jgtzn (Word.bits w 11 8) (Word.bits w 7 0))
    | _ => .ok (.jltzn (Word.bits w 11 8) (Word.bits w 7 0))

/-- Round trip (R91, which the spec derives from the PRESUMED table, log 2): a well-formed instruction is decoded back from its
word, every operand recovered, but for the overlapping tuples, which decode to the more specific name with the same operands. -/
def Obligations.DecodeInvertsEncode : Prop :=
  (∀ i : Instr, i.wf = true → i.overlapped = false → decode (encode i) = .ok i)
  ∧ decode (encode (.copy 0 0)) = .ok .nop
  ∧ (∀ x y, x < 16 → y < 16 →
      decode (encode (.add x y 0)) = if x = 0 ∧ y = 0 then .ok .nop else .ok (.copy x y))
  ∧ (∀ x z, x < 16 → z < 16 → decode (encode (.sub x 0 z)) = .ok (.neg x z))
  ∧ (∀ n, n < 256 → decode (encode (.calln 0 n)) = .ok (.jumpn n))

/-- The converse round trip (R92, which the spec derives from the PRESUMED table, log 2): encoding what a word decodes to gives
the word back, so no bit is ignored (R86); and the decoder produces no out-of-range operand (R87) and no operand tuple of the
overlaps (R82). -/
def Obligations.EncodeInvertsDecode : Prop :=
  ∀ (w : Word) (i : Instr), decode w = .ok i → encode i = w ∧ i.wf = true ∧ i.overlapped = false

/-- The illegal words are exactly two sets (R96, which the spec derives from the PRESUMED table, log 2): bits 15:12 zero
and none of the 49 words of `halt`, `read`, `write`, `jumpr`; or bits 15:12 = 0100 with bits 3:0 above 1. -/
def Obligations.IllegalWordsAreExactlyThese : Prop :=
  ∀ w : Word, decode w = .error .decodeFailure ↔
    (Word.bits w 15 12 = 0 ∧ ¬ (Word.bits w 7 0 = 0 ∧ Word.bits w 11 8 = 0) ∧ Word.bits w 7 0 ≠ 1
      ∧ Word.bits w 7 0 ≠ 2 ∧ Word.bits w 7 0 ≠ 3)
    ∨ (Word.bits w 15 12 = 4 ∧ 2 ≤ Word.bits w 3 0)

/-! ## Guarded accessors -/

/-- Guarded register read (R24), with the consequence that no decoded instruction can make it fault. -/
def Obligations.GuardedRegisterRead : Prop :=
  (∀ (s : State) (i : Int), ¬ (0 ≤ i ∧ i < 16) → getReg i s = .error (.invalidRegister i))
  ∧ (∀ s : State, getReg 0 s = .ok 0)
  ∧ (∀ (s : State) (n : Nat) (h : n < 16), n ≠ 0 → getReg (n : Int) s = .ok s.registers[n])
  ∧ (∀ (w : Word) (i : Instr) (r : Nat) (s : State), decode w = .ok i → Operand.reg r ∈ i.operands →
      getReg (r : Int) s = .ok (s.reg r))

/-- Guarded register write (R25). The order of its tests is the spec's own decision D6 (log 13). The undo-log clause, one edit
for the call, newest first, is the model's own (R218, log 20). -/
def Obligations.GuardedRegisterWrite : Prop :=
  ∀ (s : State) (i v : Int),
    (¬ (0 ≤ i ∧ i < 16) → setReg i v s = .error (.invalidRegister i))
    ∧ (0 ≤ i → i < 16 → ¬ VALID v → setReg i v s = .error (.integerOutOfRange v))
    ∧ (VALID v → setReg 0 v s = .ok s)
    ∧ (∀ n : Nat, i = n → n < 16 → n ≠ 0 → VALID v →
        ∃ t, setReg i v s = .ok t ∧ t.reg n = v ∧ (∀ j, j < 16 → j ≠ n → t.reg j = s.reg j)
          ∧ t.undoLog = pushEdit (.register n (s.reg n)) s.undoLog
          ∧ t = { s with registers := t.registers, undoLog := t.undoLog })

/-- Guarded memory read (R54): only the address is tested, whatever the mode and the segment, and what is returned is the
cell as it stands. -/
def Obligations.GuardedMemoryRead : Prop :=
  ∀ (s : State) (a : Int),
    (¬ (0 ≤ a ∧ a < 256) → memRead a s = .error (.invalidAddress a))
    ∧ (∀ n : Nat, a = n → n < 256 → memRead a s = .ok (Memory.read s.ram n))

/-- Guarded memory write (R55), and that the written cell then reads as the value and every other cell as before. The
order of the tests is the spec's own decision D7 (log 13). The undo-log clause, one edit for the call, newest first, is the
model's own (R218, log 20), and so is the canonical form (log 4). -/
def Obligations.GuardedMemoryWrite : Prop :=
  ∀ (s : State) (a v : Int), Memory.wf s.ram = true →
    (¬ (0 ≤ a ∧ a < 256) → memWrite a v s = .error (.invalidAddress a))
    ∧ (0 ≤ a → a < 256 → ¬ VALID v → memWrite a v s = .error (.integerOutOfRange v))
    ∧ (0 ≤ a → a < 256 → VALID v → s.mode = .SAFE → a < (s.codeSegmentBoundary : Int) →
        memWrite a v s = .error (.codeSegmentWrite a))
    ∧ (∀ n : Nat, a = n → n < 256 → VALID v → (s.mode = .SAFE → s.codeSegmentBoundary ≤ n) →
        ∃ t, memWrite a v s = .ok t ∧ Memory.read t.ram n = v
          ∧ (∀ b, b ≠ n → Memory.read t.ram b = Memory.read s.ram b) ∧ Memory.wf t.ram = true
          ∧ t.undoLog = pushEdit (.ram n (Memory.read s.ram n)) s.undoLog
          ∧ t = { s with ram := t.ram, undoLog := t.undoLog })

/-- Jump targets are validated against `[0, 256)` and, in SAFE mode, against the code segment; a program that jumps past the
code segment in SAFE mode, by any jump that is taken, goes to ERROR instead of jumping (R175). The undo-log edit of an accepted
jump is the model's own clause (R218, log 20). That `pc` is not the target after the fault rests, for a target one past the
instruction, on the full revert, the spec's own decision D5 (log 12). Operand roles: log 17 (PRESUMED). -/
def Obligations.JumpTargetsAreValidated : Prop :=
  ∀ (s : State) (t : Int),
    (¬ (0 ≤ t ∧ t < 256) → jump t s = .error (.invalidJumpTarget t))
    ∧ (s.mode = .SAFE → (s.codeSegmentBoundary : Int) ≤ t → jump t s = .error (.invalidJumpTarget t))
    ∧ (∀ n : Nat, t = n → n < 256 → (s.mode = .SAFE → n < s.codeSegmentBoundary) →
        jump t s = .ok { s with pc := n, undoLog := pushEdit (.pc s.pc) s.undoLog })
    ∧ (∀ (u : State) (i : Instr) (x n : Nat), prepare s = .run i u → x < 16 →
        (i = .jumpr x ∧ t = s.reg x) ∨ (i = .jumpn n ∧ t = n) ∨ (i = .calln x n ∧ t = n)
          ∨ (i = .jeqzn x n ∧ t = n ∧ s.reg x = 0) ∨ (i = .jnezn x n ∧ t = n ∧ s.reg x ≠ 0)
          ∨ (i = .jgtzn x n ∧ t = n ∧ s.reg x > 0) ∨ (i = .jltzn x n ∧ t = n ∧ s.reg x < 0) →
        s.mode = .SAFE → (s.codeSegmentBoundary : Int) ≤ t →
        ∃ v, step s = .next v ∧ v.state = .ERROR ∧ (v.pc : Int) ≠ t)

/-! ## Instructions: system and input/output -/

/-- `halt` (R140): HALT, and `pc` back at the instruction's own address; nothing else changes. -/
def Obligations.HaltStopsAtItsOwnAddress : Prop :=
  ∀ s : State, s.lastPc < 256 →
    ∃ t, exec .halt s = .next t ∧ t.state = .HALT ∧ t.pc = s.lastPc ∧ s.sameRegisters t ∧ s.sameMemory t
      ∧ t.readTarget = s.readTarget ∧ t.output = s.output ∧ s.sameControl t

/-- `read rX` (R141): the register is captured and the machine waits; no register changes. -/
def Obligations.ReadCapturesItsRegisterAndWaits : Prop :=
  ∀ (s : State) (x : Nat),
    ∃ t, exec (.read x) s = .next t ∧ t.state = .WAIT ∧ t.readTarget = some x ∧ t.pc = s.pc ∧ s.sameRegisters t
      ∧ s.sameMemory t ∧ t.output = s.output ∧ s.sameControl t

/-- `write rX` (R142): the register's exact integer is appended to the output stream; nothing else changes.
Operand roles: log 17 (PRESUMED). -/
def Obligations.WriteEmitsTheRegister : Prop :=
  ∀ (s : State) (x : Nat), x < 16 → exec (.write x) s = .next { s with output := s.output ++ [s.reg x] }

/-- `nop` (R145): its word is 0x6000, and it has no effect. -/
def Obligations.NopHasNoEffect : Prop :=
  decode 0x6000#16 = .ok .nop ∧ ∀ s : State, exec .nop s = .next s

/-! ## Instructions: data movement -/

/-- `setn rX N` and `copy rX rY` (R150, R155): the immediate, or the source register's value, goes into the register.
Operand roles: log 17 (PRESUMED). -/
def Obligations.SetnAndCopyWriteTheirValue : Prop :=
  ∀ (s : State) (x : Nat), x < 16 →
    (∀ n : Int, -128 ≤ n → n ≤ 127 → WritesOnlyRegister (.setn x n) s x n)
    ∧ (∀ y, y < 16 → VALID (s.reg y) → WritesOnlyRegister (.copy x y) s x (s.reg y))

/-- `loadn rX N` and `loadr rX rY` (R151, R153): the cell at the address goes into the register, from the code segment too;
an address in a register that is outside memory faults. What `takeFault` leaves
is R200 with the spec's own decisions D5 (log 12) and D23 (log 20).
Operand roles: log 17 (PRESUMED). -/
def Obligations.LoadsReadTheCell : Prop :=
  ∀ (s : State) (x : Nat) (i : Instr) (a : Int), x < 16 →
    (∃ n : Nat, n < 256 ∧ i = .loadn x n ∧ a = n) ∨ (∃ y, y < 16 ∧ i = .loadr x y ∧ a = s.reg y) →
    (∀ n : Nat, a = n → n < 256 → VALID (Memory.read s.ram n) → WritesOnlyRegister i s x (Memory.read s.ram n))
    ∧ (¬ (0 ≤ a ∧ a < 256) → exec i s = .next (s.takeFault (.invalidAddress a)))

/-- `storen rX N` and `storer rX rY` (R152, R154): the register's value goes into the cell at the address; an address in a
register that is outside memory faults, and so does, in SAFE mode, an address inside the code segment. What `takeFault` leaves
is R200 with the spec's own decisions D5 (log 12) and D23 (log 20).
Operand roles: log 17 (PRESUMED). -/
def Obligations.StoresWriteTheCell : Prop :=
  ∀ (s : State) (x : Nat) (i : Instr) (a : Int), x < 16 → VALID (s.reg x) → Memory.wf s.ram = true →
    (∃ n : Nat, n < 256 ∧ i = .storen x n ∧ a = n) ∨ (∃ y, y < 16 ∧ i = .storer x y ∧ a = s.reg y) →
    (∀ n : Nat, a = n → n < 256 → (s.mode = .SAFE → s.codeSegmentBoundary ≤ n) → StoresOnlyCell i s n (s.reg x))
    ∧ (¬ (0 ≤ a ∧ a < 256) → exec i s = .next (s.takeFault (.invalidAddress a)))
    ∧ (0 ≤ a → a < 256 → s.mode = .SAFE → a < (s.codeSegmentBoundary : Int) →
        exec i s = .next (s.takeFault (.codeSegmentWrite a)))

/-! ## Instructions: arithmetic -/

/-- `addn`, `add`, `sub`, `mul`, `neg` (R161 to R164, R168): the exact result, or the range fault. That the fault comes also
when the destination is register 0 is the spec's own decision D6 (log 13). What `takeFault` leaves
is R200 with the spec's own decisions D5 (log 12) and D23 (log 20).
Operand roles: log 17 (PRESUMED). -/
def Obligations.ArithmeticStoresTheExactResult : Prop :=
  ∀ (s : State) (x y z : Nat), x < 16 → y < 16 → z < 16 → ∀ (i : Instr) (v : Int),
    (∃ n : Int, -128 ≤ n ∧ n ≤ 127 ∧ i = .addn x n ∧ v = s.reg x + n)
      ∨ (i = .add x y z ∧ v = s.reg y + s.reg z) ∨ (i = .sub x y z ∧ v = s.reg y - s.reg z)
      ∨ (i = .mul x y z ∧ v = s.reg y * s.reg z) ∨ (i = .neg x y ∧ v = -(s.reg y)) →
    (VALID v → WritesOnlyRegister i s x v)
    ∧ (¬ VALID v → exec i s = .next (s.takeFault (.integerOutOfRange v)))

/-- `div rX rY rZ` (R165): a zero divisor faults; else the quotient truncated toward zero, or the range fault. That the range
fault comes also when the destination is register 0 is the spec's own decision D6 (log 13). What `takeFault` leaves
is R200 with the spec's own decisions D5 (log 12) and D23 (log 20).
Operand roles: log 17 (PRESUMED). -/
def Obligations.DivTruncatesTowardZero : Prop :=
  ∀ (s : State) (x y z : Nat), x < 16 → y < 16 → z < 16 →
    (s.reg z = 0 → exec (.div x y z) s = .next (s.takeFault .divisionByZero))
    ∧ (s.reg z ≠ 0 → VALID (tdiv (s.reg y) (s.reg z)) →
        WritesOnlyRegister (.div x y z) s x (tdiv (s.reg y) (s.reg z)))
    ∧ (s.reg z ≠ 0 → ¬ VALID (tdiv (s.reg y) (s.reg z)) →
        exec (.div x y z) s = .next (s.takeFault (.integerOutOfRange (tdiv (s.reg y) (s.reg z)))))

/-- `mod rX rY rZ` (R166): a zero divisor faults; else the remainder of the truncated quotient (the spec's own decision
D11, log 16), which never leaves the range when the dividend is in it. What `takeFault` leaves
is R200 with the spec's own decisions D5 (log 12) and D23 (log 20).
Operand roles: log 17 (PRESUMED). -/
def Obligations.ModStoresTheTruncatedRemainder : Prop :=
  ∀ (s : State) (x y z : Nat), x < 16 → y < 16 → z < 16 →
    (s.reg z = 0 → exec (.mod x y z) s = .next (s.takeFault .divisionByZero))
    ∧ (s.reg z ≠ 0 → VALID (s.reg y) → WritesOnlyRegister (.mod x y z) s x (tmod (s.reg y) (s.reg z)))

/-- For every nonzero divisor the quotient and remainder fit together: `a = b·q + r`, `|r| < |b|`, and `r` is 0 or has the
sign of the dividend (R167). The remainder's sign is the spec's own decision D11 (log 16). -/
def Obligations.QuotientAndRemainderFitTogether : Prop :=
  ∀ a b : Int, b ≠ 0 →
    a = b * tdiv a b + tmod a b ∧ (tmod a b).natAbs < b.natAbs
    ∧ (tmod a b = 0 ∨ (0 < a ∧ 0 < tmod a b) ∨ (a < 0 ∧ tmod a b < 0))

/-- A zero divisor faults (R197): the machine goes to ERROR, reports the division by zero, and changes no register (the
destination among them), no cell and no output (R200; R201, which the spec derives). That the divisor is the third operand
is PRESUMED (R165, R166, log 17). -/
def Obligations.ZeroDivisorFaults : Prop :=
  ∀ (s u : State) (i : Instr) (x y z : Nat), prepare s = .run i u → z < 16 → y < 16 →
    (i = .div x y z ∨ i = .mod x y z) → s.reg z = 0 →
    ∃ t, step s = .next t ∧ t.state = .ERROR ∧ t.errors = s.errors ++ [.divisionByZero] ∧ s.sameRegisters t
      ∧ s.sameMemory t ∧ t.output = s.output

/-- The arithmetic law over a whole step (R160), with what each instruction computes (R161 to R168): a result in range is
stored exactly and the machine goes on; any other result is a fault, and the instruction has no effect. No result wraps or
saturates, and the operands are the exact integers the registers hold. Register 0 takes no result (R23). What `mod`
computes is the spec's own decision D11 (log 16), and that an out-of-range result faults with register 0 as destination
too is its decision D6 (log 13).
Operand roles: log 17 (PRESUMED). -/
def Obligations.ArithmeticIsExactOrFaults : Prop :=
  ∀ (s u : State) (i : Instr) (x : Nat) (v : Int), prepare s = .run i u → x < 16 →
    ((∃ n, i = .addn x n ∧ v = s.reg x + n)
      ∨ (∃ y z, i = .add x y z ∧ v = s.reg y + s.reg z) ∨ (∃ y z, i = .sub x y z ∧ v = s.reg y - s.reg z)
      ∨ (∃ y z, i = .mul x y z ∧ v = s.reg y * s.reg z)
      ∨ (∃ y z, i = .div x y z ∧ s.reg z ≠ 0 ∧ v = tdiv (s.reg y) (s.reg z))
      ∨ (∃ y z, i = .mod x y z ∧ s.reg z ≠ 0 ∧ v = tmod (s.reg y) (s.reg z))
      ∨ (∃ y, i = .neg x y ∧ v = -(s.reg y))) →
    (-32768 ≤ v → v ≤ 65534 → ∃ t, step s = .next t ∧ t.state.isActive = true ∧ t.reg x = if x = 0 then 0 else v)
    ∧ (¬ (-32768 ≤ v ∧ v ≤ 65534) → ∃ t, step s = .next t ∧ t.state = .ERROR
        ∧ t.errors = s.errors ++ [.integerOutOfRange v] ∧ s.sameRegisters t ∧ s.sameMemory t ∧ t.output = s.output)

/-! ## Instructions: control transfer -/

/-- `jumpr rX` and `jumpn N` (R176, R177): the jump, and the fault on a target that is not accepted. Nothing of a register
target is truncated. What `takeFault` leaves
is R200 with the spec's own decisions D5 (log 12) and D23 (log 20).
Operand roles: log 17 (PRESUMED). -/
def Obligations.JumpsGoToTheirTarget : Prop :=
  ∀ (s : State) (i : Instr) (t : Int),
    (∃ x, x < 16 ∧ i = .jumpr x ∧ t = s.reg x) ∨ (∃ n : Nat, n < 256 ∧ i = .jumpn n ∧ t = n) →
    (∀ n : Nat, t = n → s.targetOk t → JumpsOnly i s n)
    ∧ (¬ s.targetOk t → exec i s = .next (s.takeFault (.invalidJumpTarget t)))

/-- `calln rX N` (R180): the return address, which is the already advanced `pc`, goes into the link register; when the jump
faults the link register keeps its value, since the whole instruction is reverted. What `takeFault` leaves
is R200 with the spec's own decisions D5 (log 12) and D23 (log 20).
Operand roles: log 17 (PRESUMED). -/
def Obligations.CallnLinksAndJumps : Prop :=
  ∀ (s : State) (x n : Nat), x < 16 → n < 256 → s.pc < 256 →
    (s.targetOk n →
      ∃ t, exec (.calln x n) s = .next t ∧ t.pc = n ∧ t.reg x = (if x = 0 then 0 else (s.pc : Int))
        ∧ (∀ j, j < 16 → j ≠ x → t.reg j = s.reg j) ∧ s.sameMemory t ∧ t.state = s.state
        ∧ t.readTarget = s.readTarget ∧ t.output = s.output ∧ s.sameControl t)
    ∧ (¬ s.targetOk n → exec (.calln x n) s = .next (s.takeFault (.invalidJumpTarget n)))

/-- The four conditional jumps (R181 to R184): taken, the target is validated; not taken, nothing happens, and the target
is not examined (the spec's own decision D10, log 15). What `takeFault` leaves
is R200 with the spec's own decisions D5 (log 12) and D23 (log 20).
Operand roles: log 17 (PRESUMED). -/
def Obligations.ConditionalJumpsTestTheRegister : Prop :=
  ∀ (s : State) (x n : Nat), x < 16 → n < 256 → ∀ (i : Instr) (taken : Prop),
    (i = .jeqzn x n ∧ (taken ↔ s.reg x = 0)) ∨ (i = .jnezn x n ∧ (taken ↔ s.reg x ≠ 0))
      ∨ (i = .jgtzn x n ∧ (taken ↔ s.reg x > 0)) ∨ (i = .jltzn x n ∧ (taken ↔ s.reg x < 0)) →
    (taken → s.targetOk n → JumpsOnly i s n)
    ∧ (taken → ¬ s.targetOk n → exec i s = .next (s.takeFault (.invalidJumpTarget n)))
    ∧ (¬ taken → exec i s = .next s)

/-- Two names of one word have one effect (R90, which the spec derives): `nop` is `add r0 r0 r0`, `copy rX rY` is
`add rX rY r0`, `neg rX rY` is `sub rX r0 rY`, `jumpn N` is `calln r0 N`. That the undo logs are
equal too, no edit standing for a dropped write to register 0, is the model's own clause (R218, log 20).
Operand roles: log 17 (PRESUMED). -/
def Obligations.OverlappingNamesHaveOneEffect : Prop :=
  (∀ s : State, exec .nop s = exec (.add 0 0 0) s)
  ∧ (∀ (s : State) (x y : Nat), exec (.copy x y) s = exec (.add x y 0) s)
  ∧ (∀ (s : State) (x y : Nat), exec (.neg x y) s = exec (.sub x 0 y) s)
  ∧ (∀ (s : State) (n : Nat), s.pc < 256 → exec (.jumpn n) s = exec (.calln 0 n) s)

/-! ## Frames over a whole step -/

/-- What a register-writing instruction leaves unchanged over its whole step (R26, R170), faulting or not: every register
but its destination, and register 0 always; every cell of memory; the output stream, the captured register, the boundary
and the mode. `calln` may change `pc` as well.
Operand roles: log 17 (PRESUMED). -/
def Obligations.RegisterInstructionsFrame : Prop :=
  ∀ (s u t : State) (i : Instr) (x : Nat), prepare s = .run i u → destination i = some x → exec i u = .next t →
    (∀ j, j < 16 → j ≠ x → t.reg j = s.reg j) ∧ t.reg 0 = 0
    ∧ s.sameMemory t ∧ t.output = s.output ∧ t.readTarget = s.readTarget
    ∧ t.codeSegmentBoundary = s.codeSegmentBoundary ∧ t.mode = s.mode

/-- What `storen` and `storer` leave unchanged over their whole step (R53, R152, R154): every register, and every cell
but the one at the address the meaning computes.
Operand roles: log 17 (PRESUMED). -/
def Obligations.StoreInstructionsFrame : Prop :=
  ∀ (s u t : State) (i : Instr), prepare s = .run i u → (∃ x y, i = .storen x y ∨ i = .storer x y) → exec i u = .next t →
    s.sameRegisters t
    ∧ (∀ a : Int, storedAddress i u = some a → ∀ b : Nat, (b : Int) ≠ a → Memory.read t.ram b = Memory.read s.ram b)
    ∧ t.output = s.output ∧ t.readTarget = s.readTarget
    ∧ t.codeSegmentBoundary = s.codeSegmentBoundary ∧ t.mode = s.mode

/-- What the remaining instructions leave unchanged over their whole step (R26, R53): `halt`, `read`, `write`, `nop` and the
jumps other than `calln` touch no register and no cell; only `write` extends the output, only `read` captures a register. -/
def Obligations.OtherInstructionsFrame : Prop :=
  ∀ (s u t : State) (i : Instr), prepare s = .run i u → destination i = none →
    (¬ ∃ x y, i = .storen x y ∨ i = .storer x y) → exec i u = .next t →
    s.sameRegisters t ∧ s.sameMemory t
    ∧ (t.output = s.output ∨ ∃ x, i = .write x) ∧ (t.readTarget = s.readTarget ∨ ∃ x, i = .read x)
    ∧ t.codeSegmentBoundary = s.codeSegmentBoundary ∧ t.mode = s.mode

/-! ## The step -/

/-- A step runs the decoded instruction (R122, R123, R124): when the fetch is allowed and the cell at `pc` decodes, `step` is
`exec` from the state in which the cell is in `ir`, `lastPc` is the instruction's address and `pc` is one more. That `state` is
then RUN is the spec's own decision D9 (log 14). That the undo log's newest group then holds just these four edits, newest
first, is the model's own clause (R218, log 20). Where the cell is negative, that the word decoded is its `u16` is the spec's
own decision D3 (log 10, UNVERIFIED); that the advance is not held to the SAFE-mode boundary, so that the last code word runs,
is its decision D4 (log 11). -/
def Obligations.StepRunsTheDecodedInstruction : Prop :=
  ∀ (s : State) (i : Instr), s.state.isActive = true → (s.mode = .SAFE → s.pc < s.codeSegmentBoundary) → s.pc < 255 →
    decode (u16 (Memory.read s.ram s.pc)) = .ok i →
    step s = exec i
      { s with
        state := .RUN
        ir := Memory.read s.ram s.pc
        lastPc := s.pc
        pc := s.pc + 1
        undoLog := [.pc s.pc, .lastPc s.lastPc, .ir s.ir, .state s.state] :: s.undoLog }

/-- The faults of the cycle, in their order (R202): the SAFE-mode fetch test (R121), the decode failure (R123), the advance at
address 255 (R124). The order and the advance are the spec's own decisions D13 (log 12) and D4 (log 11). What `afterFault` says
of the fault is R200 with its decisions D5, the full revert (log 12), and D23, the undo group of the ERROR entry alone (R220,
log 20). Where the cell is negative, that the word decoded is its `u16` is the spec's own decision D3 (log 10, UNVERIFIED). -/
def Obligations.CycleFaultsInOrder : Prop :=
  ∀ s : State, s.state.isActive = true → s.pc < 256 →
    (s.mode = .SAFE → s.codeSegmentBoundary ≤ s.pc → step s = .next (s.afterFault (.fetchOutsideCode s.pc)))
    ∧ ((s.mode = .SAFE → s.pc < s.codeSegmentBoundary) →
        decode (u16 (Memory.read s.ram s.pc)) = .error .decodeFailure →
        step s = .next (s.afterFault (.decodeFailure (Memory.read s.ram s.pc))))
    ∧ (∀ i : Instr, (s.mode = .SAFE → s.pc < s.codeSegmentBoundary) → s.pc = 255 →
        decode (u16 (Memory.read s.ram s.pc)) = .ok i →
        step s = .next (s.afterFault (.invalidJumpTarget 256)))

/-- Outside READY and RUN the call is refused: nothing changes and no event is emitted (R120). For EMPTY, HALT and ERROR this
is the spec's own decision D8 (log 5). -/
def Obligations.InactiveStepChangesNothing : Prop :=
  ∀ s : State, s.state = .WAIT ∨ s.state = .EMPTY ∨ s.state = .HALT ∨ s.state = .ERROR → step s = .next s

/-- Every call of `runNextInstruction` answers a next state, whatever the state (R132, R244): no instruction is refused
and none stops the model (log 6). -/
def Obligations.StepAlwaysAnswersANextState : Prop :=
  ∀ s : State, ∃ t, step s = .next t

/-- Faults are precise (R200, R201; the full revert is the spec's own decision D5, log 12, the undo group of the ERROR
entry its D23, R220, log 20): if a step ends in ERROR, the machine is
exactly as it was before the step but for `state`, the log group that records it, and one error event. -/
def Obligations.FaultLeavesNothingButError : Prop :=
  ∀ s t : State, s.state ≠ .ERROR → step s = .next t → t.state = .ERROR → ∃ k, t = s.afterFault k

/-- Where a step leads (R32): from an active state, `halt` to HALT, `read` to WAIT, any other instruction to an active state,
and a fault of any of them to ERROR. READY and RUN are told apart by no clause (D9, log 14). -/
def Obligations.StepFollowsTheRunStateDiagram : Prop :=
  ∀ (s u t : State) (i : Instr), prepare s = .run i u → exec i u = .next t →
    t.state = .ERROR ∨ (i = .halt ∧ t.state = .HALT) ∨ ((∃ x, i = .read x) ∧ t.state = .WAIT)
    ∨ (i ≠ .halt ∧ (¬ ∃ x, i = .read x) ∧ t.state.isActive = true)

/-- The final state of a halted run (R135): `pc` and `lastPc` are the address of the `halt`, `ir` is the `halt` word, registers
and memory are as the program left them. -/
def Obligations.HaltedStateIsAsStated : Prop :=
  ∀ s t : State, s.Inv → s.state.isActive = true → step s = .next t → t.state = .HALT →
    t.pc = s.pc ∧ t.lastPc = s.pc ∧ t.ir = 0 ∧ Memory.read s.ram s.pc = 0 ∧ s.sameRegisters t ∧ s.sameMemory t

/-- One step emits at most one event (R131): `out(v)` if the instruction is `write` and does not fault, one error if the step
faults, nothing otherwise. That `v` is the value of the operand register is R142, whose operand is PRESUMED (log 17). -/
def Obligations.StepEmitsAtMostOneEvent : Prop :=
  ∀ s t : State, s.state.isActive = true → step s = .next t →
    (t.state ≠ .ERROR ∧ t.errors = s.errors
      ∧ ((∃ x u, prepare s = .run (.write x) u ∧ t.output = s.output ++ [s.reg x])
        ∨ ((¬ ∃ x u, prepare s = .run (.write x) u) ∧ t.output = s.output)))
    ∨ (t.state = .ERROR ∧ t.output = s.output ∧ ∃ k, t.errors = s.errors ++ [k])

/-! ## Protection -/

/-- SAFE mode adds faults and nothing else (R33): a step that does not fault in SAFE mode does exactly the same in UNSAFE
mode. -/
def Obligations.SafeModeOnlyAddsFaults : Prop :=
  ∀ s t : State, step { s with mode := .SAFE } = .next t → t.state ≠ .ERROR →
    step { s with mode := .UNSAFE } = .next { t with mode := .UNSAFE }

/-- In SAFE mode the code a run executes is the loaded image (R42 (e), R65, which the spec derives): no step changes a cell
of the code segment, and what is executed is fetched from it. -/
def Obligations.SafeModeKeepsTheCodeSegment : Prop :=
  ∀ s t : State, s.mode = .SAFE → step s = .next t →
    (∀ a, a < s.codeSegmentBoundary → Memory.read t.ram a = Memory.read s.ram a)
    ∧ (∀ i u, prepare s = .run i u → s.pc < s.codeSegmentBoundary)

/-- `codeSegmentBoundary` only changes on load and reset (R34): a load sets it to the instruction count, a clearing reset
to 0, and every other call keeps it. -/
def Obligations.BoundaryChangesOnlyOnLoadAndReset : Prop :=
  ∀ s : State,
    (s.afterCall .runNextInstruction).codeSegmentBoundary = s.codeSegmentBoundary
    ∧ (∀ text, (s.afterCall (.readInput text)).codeSegmentBoundary = s.codeSegmentBoundary)
    ∧ (s.afterCall .stepBackward).codeSegmentBoundary = s.codeSegmentBoundary
    ∧ (s.afterCall (.resetMachine false)).codeSegmentBoundary = s.codeSegmentBoundary
    ∧ (s.afterCall (.resetMachine true)).codeSegmentBoundary = 0
    ∧ (∀ text ws, parseImage text = some ws → (s.afterCall (.loadBinary text)).codeSegmentBoundary = ws.length)
    ∧ (∀ text, parseImage text = none → (s.afterCall (.loadBinary text)).codeSegmentBoundary = s.codeSegmentBoundary)

/-- `mode` is touched by no call: R238 says so of load and reset; that a step, an input and `stepBackward` keep it too rests on
R33 with the spec's own decision D15 (log 1). -/
def Obligations.ModeIsConstant : Prop :=
  ∀ (c : HostCall) (s : State), (s.afterCall c).mode = s.mode

/-! ## Invariants -/

/-- The state after creation (R231, R43). The values are the spec's own decision D14 (log 8); `mode` is the open parameter
(log 1), of which nothing is claimed. -/
def Obligations.ResetIsTheCreationState : Prop :=
  (∀ i, i < 16 → State.reset.reg i = 0) ∧ (∀ a, Memory.read State.reset.ram a = 0) ∧ State.reset.pc = 0
  ∧ State.reset.codeSegmentBoundary = 0 ∧ State.reset.state = .EMPTY ∧ State.reset.readTarget = none
  ∧ State.reset.undoLog = [] ∧ State.reset.mode = Config.MODE

/-- The invariant holds at reset, whose values are the spec's own decision D14 (log 8); its clauses on the canonical form (log 4)
and on the undo log (log 20) are the model's own. -/
def Obligations.InvariantHoldsAtReset : Prop := State.reset.Inv

/-- Every step keeps the invariant: registers and cells stay `VALID`, register 0 stays 0, `pc`, `lastPc` and the boundary stay
in range, memory stays canonical, SAFE-mode code stays unsigned (R42). What it says of the canonical form (log 4) and
of the edits in the undo log (log 20) is the model's own. -/
def Obligations.StepKeepsTheInvariant : Prop :=
  ∀ s t : State, s.Inv → step s = .next t → t.Inv

/-- Every other host call keeps the invariant too (R32, R42, R43). Its clauses on the canonical form (log 4) and on the undo log
(log 20) are the model's own. -/
def Obligations.HostCallsKeepTheInvariant : Prop :=
  ∀ (s : State) (c : HostCall), c ≠ .runNextInstruction → s.Inv → (s.afterCall c).Inv

/-- Every reachable state meets the invariant (R42 (a) to (d), (f)). Its clauses on the canonical form (log 4) and on the undo
log (log 20) are the model's own. -/
def Obligations.ReachableStatesMeetTheInvariant : Prop :=
  ∀ s : State, Reachable s → s.Inv

/-- Register 0 is always 0 in every reachable state, reads as 0, and silently ignores writes of values that are in range
(R23; that a value out of range faults instead is the spec's own decision D6, log 13). -/
def Obligations.RegisterZeroIsHardWired : Prop :=
  (∀ s : State, Reachable s → s.registers.getD 0 0 = 0)
  ∧ (∀ s : State, getReg 0 s = .ok 0)
  ∧ (∀ (s : State) (v : Int), VALID v → setReg 0 v s = .ok s)

/-- `pc` is in `0..255` in every reachable state; while an Operation runs it holds the instruction's address plus 1 and
`lastPc` that address; no instruction is dispatched from address 255, so `pc` never wraps (R29; that the advance at 255 faults is
the spec's own decision D4, log 11). -/
def Obligations.ProgramCounterStaysInRange : Prop :=
  (∀ s : State, Reachable s → s.pc < 256)
  ∧ (∀ (s u : State) (i : Instr), prepare s = .run i u → u.pc = s.pc + 1 ∧ u.lastPc = s.pc ∧ u.pc < 256)

/-! ## Stepping backward -/

/-- Stepping backward undoes a step (R136, R219): after any executed step, faulting or not, one `stepBackward` restores
registers, memory, `pc`, `lastPc`, `ir` and `state` exactly, and the log. For a faulting step this rests on the spec's own
decision D23 (R220, log 20); that the log is restored too is the model's own clause (R218, log 20). -/
def Obligations.StepBackwardUndoesAStep : Prop :=
  ∀ s t : State, Memory.wf s.ram = true → s.state.isActive = true → step s = .next t →
    t.stepBackward.registers = s.registers ∧ t.stepBackward.ram = s.ram ∧ t.stepBackward.pc = s.pc
    ∧ t.stepBackward.lastPc = s.lastPc ∧ t.stepBackward.ir = s.ir ∧ t.stepBackward.state = s.state
    ∧ t.stepBackward.undoLog = s.undoLog

/-- Stepping backward across an accepted input, and on an empty log (R219, R221): the register is restored and the machine waits
again; with an empty log nothing happens. Both are the spec's own decision D23 (log 20); that an accepted input answers
`accepted` is the model's choice (log 28). -/
def Obligations.StepBackwardUndoesAnInput : Prop :=
  (∀ (s : State) (text : String), (readInput text s).1 = .accepted → (readInput text s).2.stepBackward = s)
  ∧ (∀ s : State, s.undoLog = [] → s.stepBackward = s)

/-! ## Host calls -/

/-- An accepted load installs the image from address 0, zeroes the rest, sets the boundary to the instruction count and
leaves the machine READY; a refused one changes nothing (R232). The values but for registers, data, log and `state` are the
spec's own decision D14 (log 8), the refusal its D16 (log 19), the reply `accepted` the model's choice (log 28). -/
def Obligations.LoadInstallsTheImage : Prop :=
  ∀ (text : String) (s : State),
    (parseImage text = none → loadBinary text s = (.refused, s))
    ∧ (∀ ws, parseImage text = some ws → ∃ t, loadBinary text s = (.accepted, t)
        ∧ (∀ a, a < ws.length → Memory.read t.ram a = ws.getD a 0) ∧ (∀ a, ws.length ≤ a → Memory.read t.ram a = 0)
        ∧ (∀ i, i < 16 → t.reg i = 0) ∧ t.codeSegmentBoundary = ws.length ∧ t.pc = 0 ∧ t.lastPc = 0 ∧ t.ir = 0
        ∧ t.readTarget = none ∧ t.undoLog = [] ∧ t.state = .READY ∧ t.mode = s.mode)

/-- The textual image is parsed back losslessly (R117, R233): the image of up to 256 words, none of them 65535, is accepted
as exactly those words; and what the parser accepts is loadable, at most 256 words of 0..65534. Of any text, given by its lines,
the parser accepts exactly the images: it gives the word of each line in order, blank lines ignored, wherever one stands; and
one line that is not blank and is not 16 binary digits refuses the whole text. The refusals of R234 are the spec's own decision
D16, and that a line of spaces is blank is the model's (both log 19). -/
def Obligations.ImageTextIsParsedBack : Prop :=
  (∀ ws : List Nat, ws.length ≤ 256 → (∀ w ∈ ws, w < 65535) →
    parseImage (imageText ws) = some (ws.map (fun w => (w : Int))))
  ∧ (∀ (text : String) (ws : List Int), parseImage text = some ws → ws.length ≤ 256 ∧ ∀ w ∈ ws, 0 ≤ w ∧ w ≤ 65534)
  ∧ (∀ (lines : List (List Char)) (ws : List Int), (∀ l ∈ lines, '\n' ∉ l) →
      (parseImage (textOfLines lines) = some ws ↔ IsImage lines ws ∧ ws.length ≤ 256))
  ∧ (∀ (lines : List (List Char)) (l : List Char), (∀ k ∈ lines, '\n' ∉ k) → l ∈ lines → ¬ IsBlankLine l →
      (¬ ∃ n, IsWordLine l n) → parseImage (textOfLines lines) = none)
  ∧ (∀ (before after : List (List Char)) (l : List Char), (∀ k ∈ before ++ after, '\n' ∉ k) → IsBlankLine l →
      parseImage (textOfLines (before ++ l :: after)) = parseImage (textOfLines (before ++ after)))

/-- The two resets (R235, R236). The values but for registers, data and `state`, and the EMPTY case, are the spec's own
decision D14 (log 8); the replies are the model's choice (log 28). -/
def Obligations.ResetsClearWhatTheySay : Prop :=
  ∀ s : State,
    (∃ t, resetMachine true s = (.accepted, t) ∧ (∀ a, Memory.read t.ram a = 0) ∧ (∀ i, i < 16 → t.reg i = 0)
      ∧ t.codeSegmentBoundary = 0 ∧ t.pc = 0 ∧ t.lastPc = 0 ∧ t.ir = 0 ∧ t.readTarget = none ∧ t.undoLog = []
      ∧ t.state = .EMPTY ∧ t.mode = s.mode)
    ∧ (s.state = .EMPTY → resetMachine false s = (.refused, s))
    ∧ (s.state ≠ .EMPTY → ∃ t, resetMachine false s = (.accepted, t)
      ∧ (∀ a, a < s.codeSegmentBoundary → Memory.read t.ram a = Memory.read s.ram a)
      ∧ (∀ a, s.codeSegmentBoundary ≤ a → Memory.read t.ram a = 0) ∧ (∀ i, i < 16 → t.reg i = 0)
      ∧ t.codeSegmentBoundary = s.codeSegmentBoundary ∧ t.pc = 0 ∧ t.lastPc = 0 ∧ t.ir = 0 ∧ t.readTarget = none
      ∧ t.undoLog = [] ∧ t.state = .READY ∧ t.mode = s.mode)

/-- `readInput` completes a `read` (R143): a literal in range goes into the captured register and the machine is READY again; a
literal out of range faults; a text that is no literal changes nothing; outside WAIT the call is refused. The literals and their
values are those of R102's two Constant forms, decimal or hexadecimal after an optional minus sign. The refusal, the
literal forms and the out-of-range case are the spec's own decision D17 (log 18); that the faulting input forms an undo group
of its own, the ERROR entry alone, is its decision D23 (log 20); the replies `accepted` and `faulted` are the model's choice
(log 28). -/
def Obligations.ReadInputCompletesARead : Prop :=
  (∀ (cs : List Char) (v : Int), parseLiteral cs = some v ↔ IsLiteral cs v)
  ∧ (∀ cs : List Char, (¬ ∃ v, IsLiteral cs v) → parseLiteral cs = none)
  ∧ ∀ (s : State) (text : String),
    (s.state ≠ .WAIT → readInput text s = (.refused, s))
    ∧ (s.state = .WAIT → parseLiteral text.toList = none → readInput text s = (.validationFailure, s))
    ∧ (∀ r v, s.state = .WAIT → s.readTarget = some r → r < 16 → parseLiteral text.toList = some v →
        (VALID v → ∃ t, readInput text s = (.accepted, t) ∧ t.state = .READY ∧ t.reg r = (if r = 0 then 0 else v)
          ∧ (∀ j, j < 16 → j ≠ r → t.reg j = s.reg j) ∧ s.sameMemory t ∧ t.pc = s.pc ∧ t.output = s.output
          ∧ s.sameControl t)
        ∧ (¬ VALID v →
            readInput text s = (.faulted (.integerOutOfRange v), s.afterFault (.integerOutOfRange v))))

/-- The instruction after a `read` sees the input (R243): the `read` suspends the machine at the next address, steps change
nothing while it waits, and the accepted input lets the cycle go on from there with the register written. That it answers
`accepted` is the model's choice (log 28), and the literal forms, which `ReadInputCompletesARead` states, are the spec's own
decision D17 (log 18). -/
def Obligations.NextInstructionSeesTheInput : Prop :=
  ∀ (s u t : State) (x : Nat) (text : String) (v : Int), x < 16 → prepare s = .run (.read x) u → step s = .next t →
    parseLiteral text.toList = some v → VALID v →
    t.state = .WAIT ∧ step t = .next t ∧ t.pc = s.pc + 1
    ∧ (readInput text t).1 = .accepted ∧ (readInput text t).2.state.isActive = true
    ∧ (readInput text t).2.pc = s.pc + 1 ∧ (readInput text t).2.reg x = if x = 0 then 0 else v

/-- A word placed where the machine fetches next is the instruction the very next step runs, from the state after reset, by the
model's own loading aid (log 9). The zeros it then finds are the creation values, the spec's own decision D14 (log 8); that the
advance past this one code word does not fault in SAFE mode is its D4 (log 11); the word 65535 stands as the cell −1, decoded by
its D3 (log 10, UNVERIFIED). -/
def Obligations.PlacedWordRunsNext : Prop :=
  ∀ (w : Nat) (i : Instr), w < 65536 → decode (BitVec.ofNat 16 w) = .ok i →
    ∃ u, prepare (State.reset.withFetchWord 16 w) = .run i u ∧ step (State.reset.withFetchWord 16 w) = exec i u
      ∧ u.pc = 1 ∧ u.lastPc = 0 ∧ (∀ j, j < 16 → u.reg j = 0)
end

