-- ==== Sys2Proof/Laws/Decode.lean ====
section
/-! SUPPORT. A word seen as four nibbles: every field and every mask of the table is made of whole nibbles (30_encoding.md R71, R73), so that
matching and extracting reduce to equalities of nibbles. -/

namespace Sys2Proof

/-- A word as a number is below 65536 (R5, R7). -/
theorem Word.toNat_lt (w : Word) : w.toNat < 65536 := w.isLt

/-- The word whose nibbles are `a`, `b`, `c`, `d`, most significant first. -/
def nibbles (a b c d : BitVec 4) : Word := a ++ b ++ c ++ d

/-- Every word is made of four nibbles. -/
theorem exists_nibbles (w : Word) : ∃ a b c d, w = nibbles a b c d := by
  refine ⟨w.extractLsb' 12 4, w.extractLsb' 8 4, w.extractLsb' 4 4, w.extractLsb' 0 4, ?_⟩
  apply BitVec.eq_of_getLsbD_eq
  intro i hi
  have hi : i < 16 := hi
  simp only [nibbles, BitVec.getLsbD_append, BitVec.getLsbD_extractLsb']
  rcases Nat.lt_or_ge i 4 with h | h
  · simp [h]
  · rcases Nat.lt_or_ge i 8 with h' | h'
    · have e : 4 + (i - 4) = i := by omega
      simp [show ¬ i < 4 by omega, show i - 4 < 4 by omega, e]
    · rcases Nat.lt_or_ge i 12 with h'' | h''
      · have e : 8 + (i - 4 - 4) = i := by omega
        simp [show ¬ i < 4 by omega, show ¬ i - 4 < 4 by omega, show i - 4 - 4 < 4 by omega, e]
      · have e : 12 + (i - 4 - 4 - 4) = i := by omega
        simp [show ¬ i < 4 by omega, show ¬ i - 4 < 4 by omega, show ¬ i - 4 - 4 < 4 by omega,
          show i - 4 - 4 - 4 < 4 by omega, e]

theorem nibbles_toNat (a b c d : BitVec 4) :
    (nibbles a b c d).toNat = a.toNat * 4096 + b.toNat * 256 + c.toNat * 16 + d.toNat := by
  have key : ∀ (x : Nat) (y : BitVec 4), x <<< 4 ||| y.toNat = x * 16 + y.toNat := by
    intro x y
    rw [← Nat.shiftLeft_add_eq_or_of_lt y.isLt, Nat.shiftLeft_eq]
  simp only [nibbles, BitVec.toNat_append, key]
  omega

theorem nibbles_inj {a b c d a' b' c' d' : BitVec 4} :
    nibbles a b c d = nibbles a' b' c' d' ↔ a = a' ∧ b = b' ∧ c = c' ∧ d = d' := by
  constructor
  · intro h
    have h := congrArg BitVec.toNat h
    rw [nibbles_toNat, nibbles_toNat] at h
    have := a.isLt; have := b.isLt; have := c.isLt; have := d.isLt
    have := a'.isLt; have := b'.isLt; have := c'.isLt; have := d'.isLt
    refine ⟨?_, ?_, ?_, ?_⟩ <;> apply BitVec.eq_of_toNat_eq <;> omega
  · rintro ⟨rfl, rfl, rfl, rfl⟩
    rfl

theorem nibbles_and (a b c d a' b' c' d' : BitVec 4) :
    nibbles a b c d &&& nibbles a' b' c' d' = nibbles (a &&& a') (b &&& b') (c &&& c') (d &&& d') := by
  unfold nibbles
  exact BitVec.and_append.trans (by rw [BitVec.and_append, BitVec.and_append])

/-- The match test of R81, nibble by nibble. -/
theorem nibbles_match {a b c d : BitVec 4} {m p : Word} {m1 m2 m3 m4 p1 p2 p3 p4 : BitVec 4}
    (hm : m = nibbles m1 m2 m3 m4) (hp : p = nibbles p1 p2 p3 p4) :
    nibbles a b c d &&& m = p ↔ a &&& m1 = p1 ∧ b &&& m2 = p2 ∧ c &&& m3 = p3 ∧ d &&& m4 = p4 := by
  rw [hm, hp, nibbles_and, nibbles_inj]

/-! ## The fields of a word of nibbles (R7) -/

theorem bits_lead (a b c d : BitVec 4) : Word.bits (nibbles a b c d) 15 12 = a.toNat := by
  have := a.isLt; have := b.isLt; have := c.isLt; have := d.isLt
  simp only [Word.bits, nibbles_toNat, Nat.shiftRight_eq_div_pow]
  omega

theorem bits_first (a b c d : BitVec 4) : Word.bits (nibbles a b c d) 11 8 = b.toNat := by
  have := a.isLt; have := b.isLt; have := c.isLt; have := d.isLt
  simp only [Word.bits, nibbles_toNat, Nat.shiftRight_eq_div_pow]
  omega

theorem bits_second (a b c d : BitVec 4) : Word.bits (nibbles a b c d) 7 4 = c.toNat := by
  have := a.isLt; have := b.isLt; have := c.isLt; have := d.isLt
  simp only [Word.bits, nibbles_toNat, Nat.shiftRight_eq_div_pow]
  omega

theorem bits_third (a b c d : BitVec 4) : Word.bits (nibbles a b c d) 3 0 = d.toNat := by
  have := a.isLt; have := b.isLt; have := c.isLt; have := d.isLt
  simp only [Word.bits, nibbles_toNat, Nat.shiftRight_eq_div_pow]
  omega

theorem bits_low (a b c d : BitVec 4) : Word.bits (nibbles a b c d) 7 0 = c.toNat * 16 + d.toNat := by
  have := a.isLt; have := b.isLt; have := c.isLt; have := d.isLt
  simp only [Word.bits, nibbles_toNat, Nat.shiftRight_eq_div_pow]
  omega

/-! ## The immediates (R8) -/

theorem sext8_range {f : Nat} (h : f < 256) : -128 ≤ sext8 f ∧ sext8 f ≤ 127 := by
  unfold sext8
  split <;> omega

/-- A signed field is recovered over its whole range (R91). -/
theorem sext8_tc8 {v : Int} (h : -128 ≤ v) (h' : v ≤ 127) : sext8 (tc8 v) = v := by
  unfold sext8 tc8
  split <;> split <;> omega

theorem tc8_sext8 {f : Nat} (h : f < 256) : tc8 (sext8 f) = f := by
  unfold sext8 tc8
  split <;> split <;> omega

theorem tc8_lt {v : Int} (h : -128 ≤ v) (h' : v ≤ 255) : tc8 v < 256 := by
  unfold tc8
  split <;> omega

/-! ## The masks and patterns of the table, nibble by nibble (R75) -/

theorem nibble_and_ones (a : BitVec 4) : a &&& 15#4 = a := by
  revert a
  decide

theorem mask_FFFF (a b c d : BitVec 4) : nibbles a b c d &&& 0xFFFF#16 = nibbles a b c d := by
  rw [show (0xFFFF#16 : Word) = nibbles 15#4 15#4 15#4 15#4 from rfl, nibbles_and]
  simp only [nibble_and_ones]

theorem mask_F0FF (a b c d : BitVec 4) : nibbles a b c d &&& 0xF0FF#16 = nibbles a 0#4 c d := by
  rw [show (0xF0FF#16 : Word) = nibbles 15#4 0#4 15#4 15#4 from rfl, nibbles_and]
  simp only [nibble_and_ones, BitVec.and_zero]

theorem mask_F000 (a b c d : BitVec 4) : nibbles a b c d &&& 0xF000#16 = nibbles a 0#4 0#4 0#4 := by
  rw [show (0xF000#16 : Word) = nibbles 15#4 0#4 0#4 0#4 from rfl, nibbles_and]
  simp only [nibble_and_ones, BitVec.and_zero]

theorem mask_F00F (a b c d : BitVec 4) : nibbles a b c d &&& 0xF00F#16 = nibbles a 0#4 0#4 d := by
  rw [show (0xF00F#16 : Word) = nibbles 15#4 0#4 0#4 15#4 from rfl, nibbles_and]
  simp only [nibble_and_ones, BitVec.and_zero]

theorem mask_F0F0 (a b c d : BitVec 4) : nibbles a b c d &&& 0xF0F0#16 = nibbles a 0#4 c 0#4 := by
  rw [show (0xF0F0#16 : Word) = nibbles 15#4 0#4 15#4 0#4 from rfl, nibbles_and]
  simp only [nibble_and_ones, BitVec.and_zero]

theorem mask_FF00 (a b c d : BitVec 4) : nibbles a b c d &&& 0xFF00#16 = nibbles a b 0#4 0#4 := by
  rw [show (0xFF00#16 : Word) = nibbles 15#4 15#4 0#4 0#4 from rfl, nibbles_and]
  simp only [nibble_and_ones, BitVec.and_zero]

theorem leadPattern1 : (0x1000#16 : Word) = nibbles 1#4 0#4 0#4 0#4 := rfl
theorem leadPattern2 : (0x2000#16 : Word) = nibbles 2#4 0#4 0#4 0#4 := rfl
theorem leadPattern3 : (0x3000#16 : Word) = nibbles 3#4 0#4 0#4 0#4 := rfl
theorem leadPattern4 : (0x4000#16 : Word) = nibbles 4#4 0#4 0#4 0#4 := rfl
theorem leadPattern5 : (0x5000#16 : Word) = nibbles 5#4 0#4 0#4 0#4 := rfl
theorem leadPattern6 : (0x6000#16 : Word) = nibbles 6#4 0#4 0#4 0#4 := rfl
theorem leadPattern7 : (0x7000#16 : Word) = nibbles 7#4 0#4 0#4 0#4 := rfl
theorem leadPattern8 : (0x8000#16 : Word) = nibbles 8#4 0#4 0#4 0#4 := rfl
theorem leadPattern9 : (0x9000#16 : Word) = nibbles 9#4 0#4 0#4 0#4 := rfl
theorem leadPatternA : (0xA000#16 : Word) = nibbles 10#4 0#4 0#4 0#4 := rfl
theorem leadPatternB : (0xB000#16 : Word) = nibbles 11#4 0#4 0#4 0#4 := rfl
theorem leadPatternC : (0xC000#16 : Word) = nibbles 12#4 0#4 0#4 0#4 := rfl
theorem leadPatternD : (0xD000#16 : Word) = nibbles 13#4 0#4 0#4 0#4 := rfl
theorem leadPatternE : (0xE000#16 : Word) = nibbles 14#4 0#4 0#4 0#4 := rfl
theorem leadPatternF : (0xF000#16 : Word) = nibbles 15#4 0#4 0#4 0#4 := rfl
theorem lowPattern0 : (0x0000#16 : Word) = nibbles 0#4 0#4 0#4 0#4 := rfl
theorem lowPattern1 : (0x0001#16 : Word) = nibbles 0#4 0#4 0#4 1#4 := rfl
theorem lowPattern2 : (0x0002#16 : Word) = nibbles 0#4 0#4 0#4 2#4 := rfl
theorem lowPattern3 : (0x0003#16 : Word) = nibbles 0#4 0#4 0#4 3#4 := rfl
theorem storerPattern : (0x4001#16 : Word) = nibbles 4#4 0#4 0#4 1#4 := rfl

/-- The matcher on the table, nibble by nibble, in precedence order (R75, R81). -/
theorem match_nibbles (a b c d : BitVec 4) : matchWord Config.LT (nibbles a b c d) =
  if a = 0#4 ∧ b = 0#4 ∧ c = 0#4 ∧ d = 0#4 then some ⟨.halt, [], 0x0000#16, 0xFFFF#16⟩ else
  if a = 0#4 ∧ c = 0#4 ∧ d = 1#4 then some ⟨.read, [.r], 0x0001#16, 0xF0FF#16⟩ else
  if a = 0#4 ∧ c = 0#4 ∧ d = 2#4 then some ⟨.write, [.r], 0x0002#16, 0xF0FF#16⟩ else
  if a = 0#4 ∧ c = 0#4 ∧ d = 3#4 then some ⟨.jumpr, [.r], 0x0003#16, 0xF0FF#16⟩ else
  if a = 1#4 then some ⟨.setn, [.r, .s], 0x1000#16, 0xF000#16⟩ else
  if a = 2#4 then some ⟨.loadn, [.r, .u], 0x2000#16, 0xF000#16⟩ else
  if a = 3#4 then some ⟨.storen, [.r, .u], 0x3000#16, 0xF000#16⟩ else
  if a = 4#4 ∧ d = 0#4 then some ⟨.loadr, [.r, .r], 0x4000#16, 0xF00F#16⟩ else
  if a = 4#4 ∧ d = 1#4 then some ⟨.storer, [.r, .r], 0x4001#16, 0xF00F#16⟩ else
  if a = 5#4 then some ⟨.addn, [.r, .s], 0x5000#16, 0xF000#16⟩ else
  if a = 6#4 ∧ b = 0#4 ∧ c = 0#4 ∧ d = 0#4 then some ⟨.nop, [], 0x6000#16, 0xFFFF#16⟩ else
  if a = 6#4 ∧ d = 0#4 then some ⟨.copy, [.r, .r], 0x6000#16, 0xF00F#16⟩ else
  if a = 6#4 then some ⟨.add, [.r, .r, .r], 0x6000#16, 0xF000#16⟩ else
  if a = 7#4 ∧ c = 0#4 then some ⟨.neg, [.r, .z, .r], 0x7000#16, 0xF0F0#16⟩ else
  if a = 7#4 then some ⟨.sub, [.r, .r, .r], 0x7000#16, 0xF000#16⟩ else
  if a = 8#4 then some ⟨.mul, [.r, .r, .r], 0x8000#16, 0xF000#16⟩ else
  if a = 9#4 then some ⟨.div, [.r, .r, .r], 0x9000#16, 0xF000#16⟩ else
  if a = 10#4 then some ⟨.mod, [.r, .r, .r], 0xA000#16, 0xF000#16⟩ else
  if a = 11#4 ∧ b = 0#4 then some ⟨.jumpn, [.z, .u], 0xB000#16, 0xFF00#16⟩ else
  if a = 11#4 then some ⟨.calln, [.r, .u], 0xB000#16, 0xF000#16⟩ else
  if a = 12#4 then some ⟨.jeqzn, [.r, .u], 0xC000#16, 0xF000#16⟩ else
  if a = 13#4 then some ⟨.jnezn, [.r, .u], 0xD000#16, 0xF000#16⟩ else
  if a = 14#4 then some ⟨.jgtzn, [.r, .u], 0xE000#16, 0xF000#16⟩ else
  if a = 15#4 then some ⟨.jltzn, [.r, .u], 0xF000#16, 0xF000#16⟩ else none := by
  simp only [Config.LT, languageTable, languageTableLow, languageTableHigh, List.cons_append, List.nil_append, matchWord,
    mask_FFFF, mask_F0FF, mask_F000, mask_F00F, mask_F0F0, mask_FF00]
  simp only [leadPattern1, leadPattern2, leadPattern3, leadPattern4, leadPattern5, leadPattern6, leadPattern7,
    leadPattern8, leadPattern9, leadPatternA, leadPatternB, leadPatternC, leadPatternD, leadPatternE, leadPatternF,
    lowPattern0, lowPattern1, lowPattern2, lowPattern3, storerPattern, nibbles_inj, and_true, true_and]

/-- The decoder, nibble by nibble, in precedence order (R75, R88). -/
theorem decode_nibbles (a b c d : BitVec 4) : decode (nibbles a b c d) =
  if a = 0#4 ∧ b = 0#4 ∧ c = 0#4 ∧ d = 0#4 then .ok .halt else
  if a = 0#4 ∧ c = 0#4 ∧ d = 1#4 then .ok (.read b.toNat) else
  if a = 0#4 ∧ c = 0#4 ∧ d = 2#4 then .ok (.write b.toNat) else
  if a = 0#4 ∧ c = 0#4 ∧ d = 3#4 then .ok (.jumpr b.toNat) else
  if a = 1#4 then .ok (.setn b.toNat (sext8 (c.toNat * 16 + d.toNat))) else
  if a = 2#4 then .ok (.loadn b.toNat (c.toNat * 16 + d.toNat)) else
  if a = 3#4 then .ok (.storen b.toNat (c.toNat * 16 + d.toNat)) else
  if a = 4#4 ∧ d = 0#4 then .ok (.loadr b.toNat c.toNat) else
  if a = 4#4 ∧ d = 1#4 then .ok (.storer b.toNat c.toNat) else
  if a = 5#4 then .ok (.addn b.toNat (sext8 (c.toNat * 16 + d.toNat))) else
  if a = 6#4 ∧ b = 0#4 ∧ c = 0#4 ∧ d = 0#4 then .ok .nop else
  if a = 6#4 ∧ d = 0#4 then .ok (.copy b.toNat c.toNat) else
  if a = 6#4 then .ok (.add b.toNat c.toNat d.toNat) else
  if a = 7#4 ∧ c = 0#4 then .ok (.neg b.toNat d.toNat) else
  if a = 7#4 then .ok (.sub b.toNat c.toNat d.toNat) else
  if a = 8#4 then .ok (.mul b.toNat c.toNat d.toNat) else
  if a = 9#4 then .ok (.div b.toNat c.toNat d.toNat) else
  if a = 10#4 then .ok (.mod b.toNat c.toNat d.toNat) else
  if a = 11#4 ∧ b = 0#4 then .ok (.jumpn (c.toNat * 16 + d.toNat)) else
  if a = 11#4 then .ok (.calln b.toNat (c.toNat * 16 + d.toNat)) else
  if a = 12#4 then .ok (.jeqzn b.toNat (c.toNat * 16 + d.toNat)) else
  if a = 13#4 then .ok (.jnezn b.toNat (c.toNat * 16 + d.toNat)) else
  if a = 14#4 then .ok (.jgtzn b.toNat (c.toNat * 16 + d.toNat)) else
  if a = 15#4 then .ok (.jltzn b.toNat (c.toNat * 16 + d.toNat)) else .error .decodeFailure := by
  unfold decode decodeWith
  rw [match_nibbles]
  simp only [← bits_low a b c d, ← bits_first a b c d]
  simp only [← bits_second a b c d, ← bits_third a b c d]
  simp only [apply_ite (decodeHit (nibbles a b c d))]
  rfl

/-! ## Placing fields (R113) -/

theorem nibbles_or (a b c d a' b' c' d' : BitVec 4) :
    nibbles a b c d ||| nibbles a' b' c' d' = nibbles (a ||| a') (b ||| b') (c ||| c') (d ||| d') := by
  unfold nibbles
  exact BitVec.or_append.trans (by rw [BitVec.or_append, BitVec.or_append])

theorem place_first (x : BitVec 4) :
    placeAt x.toNat Config.REG_FIELD_BITS Config.OPCODE_LEAD_BITS = nibbles 0#4 x 0#4 0#4 := by
  revert x
  decide

theorem place_second (x : BitVec 4) :
    placeAt x.toNat Config.REG_FIELD_BITS (Config.OPCODE_LEAD_BITS + Config.REG_FIELD_BITS)
      = nibbles 0#4 0#4 x 0#4 := by
  revert x
  decide

theorem place_third (x : BitVec 4) :
    placeAt x.toNat Config.REG_FIELD_BITS (Config.OPCODE_LEAD_BITS + Config.REG_FIELD_BITS + Config.REG_FIELD_BITS)
      = nibbles 0#4 0#4 0#4 x := by
  revert x
  decide

theorem place_low (c d : BitVec 4) :
    placeAt (c.toNat * 16 + d.toNat) Config.IMM_FIELD_BITS (Config.OPCODE_LEAD_BITS + Config.REG_FIELD_BITS)
      = nibbles 0#4 0#4 c d := by
  have := c.isLt; have := d.isLt
  apply BitVec.eq_of_toNat_eq
  rw [nibbles_toNat]
  change (BitVec.ofNat 16 (c.toNat * 16 + d.toNat) <<< 0).toNat = _
  simp only [BitVec.shiftLeft_zero, BitVec.toNat_ofNat]
  omega

/-- A register operand is a nibble. -/
theorem exists_nibble {n : Nat} (h : n < 16) : ∃ x : BitVec 4, n = x.toNat := ⟨BitVec.ofNat 4 n, by simp; omega⟩

/-- An 8-bit field is two nibbles. -/
theorem exists_two_nibbles {n : Nat} (h : n < 256) : ∃ c d : BitVec 4, n = c.toNat * 16 + d.toNat :=
  ⟨BitVec.ofNat 4 (n / 16), BitVec.ofNat 4 n, by simp; omega⟩

theorem tc8_natCast (n : Nat) : tc8 (n : Int) = n := by simp [tc8]

/-! ## The words of the instructions, format by format (R74, R113) -/

section
variable {op : OpName} {m : Word}

/-- One register. -/
theorem encodeWith_r (p c d x : BitVec 4) :
    encodeWith ⟨op, [.r], nibbles p 0#4 c d, m⟩ [.reg x.toNat] = nibbles p x c d := by
  simp only [encodeWith, placeFields, place_first]
  simp only [BitVec.or_zero, nibbles_or, BitVec.zero_or]

/-- Two registers. -/
theorem encodeWith_rr (p q x y : BitVec 4) :
    encodeWith ⟨op, [.r, .r], nibbles p 0#4 0#4 q, m⟩ [.reg x.toNat, .reg y.toNat] = nibbles p x y q := by
  simp only [encodeWith, placeFields, place_first, place_second]
  simp only [BitVec.or_zero, nibbles_or, BitVec.zero_or]

/-- A register, padding, a register. -/
theorem encodeWith_rzr (p x z : BitVec 4) :
    encodeWith ⟨op, [.r, .z, .r], nibbles p 0#4 0#4 0#4, m⟩ [.reg x.toNat, .reg z.toNat] = nibbles p x 0#4 z := by
  simp only [encodeWith, placeFields, place_first, place_third]
  simp only [BitVec.or_zero, nibbles_or, BitVec.zero_or]

/-- Three registers. -/
theorem encodeWith_rrr (p x y z : BitVec 4) :
    encodeWith ⟨op, [.r, .r, .r], nibbles p 0#4 0#4 0#4, m⟩ [.reg x.toNat, .reg y.toNat, .reg z.toNat]
      = nibbles p x y z := by
  simp only [encodeWith, placeFields, place_first, place_second, place_third]
  simp only [BitVec.or_zero, nibbles_or, BitVec.zero_or]

/-- A register and an unsigned immediate. -/
theorem encodeWith_ru (p x c d : BitVec 4) :
    encodeWith ⟨op, [.r, .u], nibbles p 0#4 0#4 0#4, m⟩ [.reg x.toNat, .unsigned (c.toNat * 16 + d.toNat)]
      = nibbles p x c d := by
  simp only [encodeWith, placeFields, tc8_natCast, place_first, place_low]
  simp only [BitVec.or_zero, nibbles_or, BitVec.zero_or]

/-- Padding and an unsigned immediate. -/
theorem encodeWith_zu (p c d : BitVec 4) :
    encodeWith ⟨op, [.z, .u], nibbles p 0#4 0#4 0#4, m⟩ [.unsigned (c.toNat * 16 + d.toNat)] = nibbles p 0#4 c d := by
  simp only [encodeWith, placeFields, tc8_natCast, place_low]
  simp only [BitVec.or_zero, nibbles_or, BitVec.zero_or]

/-- A register and a signed immediate. -/
theorem encodeWith_rs (p x c d : BitVec 4) {v : Int} (h : tc8 v = c.toNat * 16 + d.toNat) :
    encodeWith ⟨op, [.r, .s], nibbles p 0#4 0#4 0#4, m⟩ [.reg x.toNat, .signed v] = nibbles p x c d := by
  simp only [encodeWith, placeFields, h, place_first, place_low]
  simp only [BitVec.or_zero, nibbles_or, BitVec.zero_or]

end

theorem encode_halt : encode .halt = nibbles 0#4 0#4 0#4 0#4 := rfl
theorem encode_nop : encode .nop = nibbles 6#4 0#4 0#4 0#4 := rfl
theorem encode_read (x : BitVec 4) : encode (.read x.toNat) = nibbles 0#4 x 0#4 1#4 := encodeWith_r 0#4 0#4 1#4 x
theorem encode_write (x : BitVec 4) : encode (.write x.toNat) = nibbles 0#4 x 0#4 2#4 := encodeWith_r 0#4 0#4 2#4 x
theorem encode_jumpr (x : BitVec 4) : encode (.jumpr x.toNat) = nibbles 0#4 x 0#4 3#4 := encodeWith_r 0#4 0#4 3#4 x
theorem encode_setn (x c d : BitVec 4) {v : Int} (h : tc8 v = c.toNat * 16 + d.toNat) :
    encode (.setn x.toNat v) = nibbles 1#4 x c d := encodeWith_rs 1#4 x c d h
theorem encode_addn (x c d : BitVec 4) {v : Int} (h : tc8 v = c.toNat * 16 + d.toNat) :
    encode (.addn x.toNat v) = nibbles 5#4 x c d := encodeWith_rs 5#4 x c d h
theorem encode_loadn (x c d : BitVec 4) :
    encode (.loadn x.toNat (c.toNat * 16 + d.toNat)) = nibbles 2#4 x c d := encodeWith_ru 2#4 x c d
theorem encode_storen (x c d : BitVec 4) :
    encode (.storen x.toNat (c.toNat * 16 + d.toNat)) = nibbles 3#4 x c d := encodeWith_ru 3#4 x c d
theorem encode_calln (x c d : BitVec 4) :
    encode (.calln x.toNat (c.toNat * 16 + d.toNat)) = nibbles 11#4 x c d := encodeWith_ru 11#4 x c d
theorem encode_jeqzn (x c d : BitVec 4) :
    encode (.jeqzn x.toNat (c.toNat * 16 + d.toNat)) = nibbles 12#4 x c d := encodeWith_ru 12#4 x c d
theorem encode_jnezn (x c d : BitVec 4) :
    encode (.jnezn x.toNat (c.toNat * 16 + d.toNat)) = nibbles 13#4 x c d := encodeWith_ru 13#4 x c d
theorem encode_jgtzn (x c d : BitVec 4) :
    encode (.jgtzn x.toNat (c.toNat * 16 + d.toNat)) = nibbles 14#4 x c d := encodeWith_ru 14#4 x c d
theorem encode_jltzn (x c d : BitVec 4) :
    encode (.jltzn x.toNat (c.toNat * 16 + d.toNat)) = nibbles 15#4 x c d := encodeWith_ru 15#4 x c d
theorem encode_jumpn (c d : BitVec 4) :
    encode (.jumpn (c.toNat * 16 + d.toNat)) = nibbles 11#4 0#4 c d := encodeWith_zu 11#4 c d
theorem encode_loadr (x y : BitVec 4) :
    encode (.loadr x.toNat y.toNat) = nibbles 4#4 x y 0#4 := encodeWith_rr 4#4 0#4 x y
theorem encode_storer (x y : BitVec 4) :
    encode (.storer x.toNat y.toNat) = nibbles 4#4 x y 1#4 := encodeWith_rr 4#4 1#4 x y
theorem encode_copy (x y : BitVec 4) :
    encode (.copy x.toNat y.toNat) = nibbles 6#4 x y 0#4 := encodeWith_rr 6#4 0#4 x y
theorem encode_neg (x z : BitVec 4) :
    encode (.neg x.toNat z.toNat) = nibbles 7#4 x 0#4 z := encodeWith_rzr 7#4 x z
theorem encode_add (x y z : BitVec 4) :
    encode (.add x.toNat y.toNat z.toNat) = nibbles 6#4 x y z := encodeWith_rrr 6#4 x y z
theorem encode_sub (x y z : BitVec 4) :
    encode (.sub x.toNat y.toNat z.toNat) = nibbles 7#4 x y z := encodeWith_rrr 7#4 x y z
theorem encode_mul (x y z : BitVec 4) :
    encode (.mul x.toNat y.toNat z.toNat) = nibbles 8#4 x y z := encodeWith_rrr 8#4 x y z
theorem encode_div (x y z : BitVec 4) :
    encode (.div x.toNat y.toNat z.toNat) = nibbles 9#4 x y z := encodeWith_rrr 9#4 x y z
theorem encode_mod (x y z : BitVec 4) :
    encode (.mod x.toNat y.toNat z.toNat) = nibbles 10#4 x y z := encodeWith_rrr 10#4 x y z

end Sys2Proof
end

