-- ==== Sys2Proof/Laws/Memory.lean ====
section
/-! SUPPORT. The laws of memory as data: what a write leaves, the canonical form, and what the load and reset images hold. -/

namespace Sys2Proof.Machine

theorem Memory.wfFrom_cons (lo a : Nat) (v : Int) (m : Memory) :
    Memory.wfFrom lo ((a, v) :: m) = true ↔ lo ≤ a ∧ v ≠ 0 ∧ Memory.wfFrom (a + 1) m = true := by
  simp [Memory.wfFrom, and_assoc]

theorem Memory.wfFrom_mono {lo lo' : Nat} {m : Memory} (h : lo' ≤ lo) (hm : Memory.wfFrom lo m = true) :
    Memory.wfFrom lo' m = true := by
  cases m with
  | nil => rfl
  | cons c m =>
    obtain ⟨a, v⟩ := c
    rw [Memory.wfFrom_cons] at hm ⊢
    exact ⟨h.trans hm.1, hm.2⟩

/-- Below the first listed address everything reads as reset. -/
theorem Memory.read_below {lo : Nat} {m : Memory} (hm : Memory.wfFrom lo m = true) {a : Nat} (ha : a < lo) :
    Memory.read m a = 0 := by
  induction m generalizing lo with
  | nil => rfl
  | cons c m ih =>
    obtain ⟨b, v⟩ := c
    rw [Memory.wfFrom_cons] at hm
    have hb : a ≠ b := by omega
    simp only [Memory.read, if_neg hb]
    exact ih hm.2.2 (by omega)

/-- A write leaves every other cell alone, canonical form or not. -/
theorem Memory.read_write_other (m : Memory) (a : Nat) (v : Int) {b : Nat} (h : b ≠ a) :
    Memory.read (Memory.write m a v) b = Memory.read m b := by
  induction m with
  | nil => by_cases hv : v = 0 <;> simp [Memory.write, Memory.read, hv, h]
  | cons c m ih =>
    obtain ⟨d, u⟩ := c
    simp only [Memory.write]
    split
    · split <;> simp [Memory.read, h]
    · split
      · rename_i hd
        subst hd
        split <;> simp [Memory.read, h]
      · simp only [Memory.read, ih]

/-- In canonical form, a cell reads as the value last written to it. -/
theorem Memory.read_write_same {lo : Nat} {m : Memory} (hm : Memory.wfFrom lo m = true) (a : Nat) (v : Int) :
    Memory.read (Memory.write m a v) a = v := by
  induction m generalizing lo with
  | nil => by_cases hv : v = 0 <;> simp [Memory.write, Memory.read, hv]
  | cons c m ih =>
    obtain ⟨d, u⟩ := c
    rw [Memory.wfFrom_cons] at hm
    simp only [Memory.write]
    split
    · rename_i had
      split
      · rename_i hv
        have hne : a ≠ d := by omega
        simp only [Memory.read, if_neg hne]
        rw [Memory.read_below hm.2.2 (by omega), hv]
      · simp [Memory.read]
    · split
      · rename_i hd
        subst hd
        split
        · rename_i hv
          rw [Memory.read_below hm.2.2 (Nat.lt_succ_self a), hv]
        · simp [Memory.read]
      · rename_i had hne
        simp only [Memory.read, if_neg hne]
        exact ih hm.2.2

/-- What a cell reads after a write, said once. -/
theorem Memory.read_write {m : Memory} (hm : Memory.wf m = true) (a : Nat) (v : Int) (b : Nat) :
    Memory.read (Memory.write m a v) b = if b = a then v else Memory.read m b := by
  by_cases h : b = a
  · subst h
    simp [Memory.read_write_same hm]
  · simp [h, Memory.read_write_other m a v h]

theorem Memory.write_wfFrom {lo : Nat} {m : Memory} (hm : Memory.wfFrom lo m = true) {a : Nat} (ha : lo ≤ a) (v : Int) :
    Memory.wfFrom lo (Memory.write m a v) = true := by
  induction m generalizing lo with
  | nil => by_cases hv : v = 0 <;> simp [Memory.write, Memory.wfFrom, hv, ha]
  | cons c m ih =>
    obtain ⟨d, u⟩ := c
    have hm' := hm
    rw [Memory.wfFrom_cons] at hm
    simp only [Memory.write]
    split
    · rename_i had
      split
      · exact hm'
      · rename_i hv
        rw [Memory.wfFrom_cons, Memory.wfFrom_cons]
        exact ⟨ha, hv, by omega, hm.2.1, hm.2.2⟩
    · split
      · rename_i hd
        subst hd
        split
        · exact Memory.wfFrom_mono (by omega) hm.2.2
        · rename_i hv
          rw [Memory.wfFrom_cons]
          exact ⟨ha, hv, hm.2.2⟩
      · rw [Memory.wfFrom_cons]
        exact ⟨hm.1, hm.2.1, ih hm.2.2 (by omega)⟩

/-- A write keeps the canonical form. -/
theorem Memory.write_wf {m : Memory} (hm : Memory.wf m = true) (a : Nat) (v : Int) :
    Memory.wf (Memory.write m a v) = true := Memory.write_wfFrom hm (Nat.zero_le a) v

/-- A write lists no cell but the old ones and its own. -/
theorem Memory.mem_write {m : Memory} {a : Nat} {v : Int} {c : Cell} (h : c ∈ Memory.write m a v) :
    c ∈ m ∨ c = (a, v) := by
  induction m with
  | nil => by_cases hv : v = 0 <;> simp_all [Memory.write]
  | cons d m ih =>
    obtain ⟨b, u⟩ := d
    simp only [Memory.write] at h
    split at h
    · split at h <;> (simp_all; try tauto)
    · split at h
      · split at h <;> (simp_all; try tauto)
      · rcases List.mem_cons.mp h with rfl | h
        · exact .inl (List.mem_cons_self ..)
        · rcases ih h with h | h
          · exact .inl (List.mem_cons_of_mem _ h)
          · exact .inr h

/-- A cell reads as 0 or as a listed value. -/
theorem Memory.read_cases (m : Memory) (a : Nat) : Memory.read m a = 0 ∨ (a, Memory.read m a) ∈ m := by
  induction m with
  | nil => exact .inl rfl
  | cons c m ih =>
    obtain ⟨b, v⟩ := c
    by_cases h : a = b
    · subst h
      simp [Memory.read]
    · simp only [Memory.read, if_neg h]
      exact ih.imp id (List.mem_cons_of_mem _)

/-- Equal memories are equal data: canonical memories that read alike everywhere are the same list. -/
theorem Memory.ext_of_read {lo : Nat} {m n : Memory} (hm : Memory.wfFrom lo m = true) (hn : Memory.wfFrom lo n = true)
    (h : ∀ a, Memory.read m a = Memory.read n a) : m = n := by
  induction m generalizing lo n with
  | nil =>
    cases n with
    | nil => rfl
    | cons c n =>
      obtain ⟨b, v⟩ := c
      rw [Memory.wfFrom_cons] at hn
      have := h b
      simp only [Memory.read, if_true] at this
      exact absurd this.symm hn.2.1
  | cons c m ih =>
    obtain ⟨a, u⟩ := c
    rw [Memory.wfFrom_cons] at hm
    cases n with
    | nil =>
      have := h a
      simp only [Memory.read, if_true] at this
      exact absurd this hm.2.1
    | cons d n =>
      obtain ⟨b, v⟩ := d
      rw [Memory.wfFrom_cons] at hn
      have hab : a = b := by
        rcases Nat.lt_trichotomy a b with hlt | heq | hgt
        · have := h a
          simp only [Memory.read, if_true, if_neg (Nat.ne_of_lt hlt)] at this
          rw [Memory.read_below hn.2.2 (by omega)] at this
          exact absurd this hm.2.1
        · exact heq
        · have := h b
          simp only [Memory.read, if_true, if_neg (Nat.ne_of_lt hgt)] at this
          rw [Memory.read_below hm.2.2 (by omega)] at this
          exact absurd this.symm hn.2.1
      subst hab
      have huv : u = v := by simpa [Memory.read] using h a
      subst huv
      congr 1
      refine ih hm.2.2 hn.2.2 fun x => ?_
      by_cases hx : x = a
      · subst hx
        rw [Memory.read_below hm.2.2 (Nat.lt_succ_self x), Memory.read_below hn.2.2 (Nat.lt_succ_self x)]
      · simpa [Memory.read, hx] using h x

/-- Writing back the old value undoes a write. -/
theorem Memory.write_restore {m : Memory} (hm : Memory.wf m = true) (a : Nat) (v : Int) :
    Memory.write (Memory.write m a v) a (Memory.read m a) = m := by
  refine Memory.ext_of_read (Memory.write_wf (Memory.write_wf hm a v) a _) hm fun b => ?_
  rw [Memory.read_write (Memory.write_wf hm a v), Memory.read_write hm]
  by_cases h : b = a <;> simp [h]

theorem Memory.ofWordsFrom_wfFrom (a : Nat) (ws : List Int) : Memory.wfFrom a (Memory.ofWordsFrom a ws) = true := by
  induction ws generalizing a with
  | nil => rfl
  | cons v ws ih =>
    simp only [Memory.ofWordsFrom]
    split
    · exact Memory.wfFrom_mono (Nat.le_succ a) (ih (a + 1))
    · rename_i hv
      rw [Memory.wfFrom_cons]
      exact ⟨le_refl a, hv, ih (a + 1)⟩

/-- The load image holds word `k` at address `a + k`, and reads as reset past its end. -/
theorem Memory.read_ofWordsFrom (a : Nat) (ws : List Int) (k : Nat) :
    Memory.read (Memory.ofWordsFrom a ws) (a + k) = ws.getD k 0 := by
  induction ws generalizing a k with
  | nil => simp [Memory.ofWordsFrom, Memory.read]
  | cons v ws ih =>
    cases k with
    | zero =>
      simp only [Memory.ofWordsFrom]
      split
      · rename_i hv
        rw [Memory.read_below (Memory.ofWordsFrom_wfFrom (a + 1) ws) (by omega)]
        simp [hv]
      · simp [Memory.read]
    | succ k =>
      have hk := ih (a + 1) k
      have e : a + 1 + k = a + (k + 1) := by omega
      rw [e] at hk
      simp only [Memory.ofWordsFrom]
      split
      · simpa using hk
      · have hne : a + (k + 1) ≠ a := by omega
        simp only [Memory.read, if_neg hne]
        simpa using hk

theorem Memory.keepBelow_wfFrom {lo : Nat} {m : Memory} (n : Nat) (hm : Memory.wfFrom lo m = true) :
    Memory.wfFrom lo (Memory.keepBelow n m) = true := by
  induction m generalizing lo with
  | nil => rfl
  | cons c m ih =>
    obtain ⟨a, v⟩ := c
    rw [Memory.wfFrom_cons] at hm
    by_cases h : a < n
    · have e : Memory.keepBelow n ((a, v) :: m) = (a, v) :: Memory.keepBelow n m := by simp [Memory.keepBelow, h]
      rw [e, Memory.wfFrom_cons]
      exact ⟨hm.1, hm.2.1, ih hm.2.2⟩
    · have e : Memory.keepBelow n ((a, v) :: m) = Memory.keepBelow n m := by simp [Memory.keepBelow, h]
      rw [e]
      exact Memory.wfFrom_mono (by omega) (ih hm.2.2)

/-- Zeroing from `n` on keeps the canonical form. -/
theorem Memory.keepBelow_wf {m : Memory} (n : Nat) (hm : Memory.wf m = true) :
    Memory.wf (Memory.keepBelow n m) = true := Memory.keepBelow_wfFrom n hm

/-- The cells below `n` are kept, the others read as 0. -/
theorem Memory.read_keepBelow (n : Nat) (m : Memory) (a : Nat) :
    Memory.read (Memory.keepBelow n m) a = if a < n then Memory.read m a else 0 := by
  induction m with
  | nil => simp [Memory.keepBelow, Memory.read]
  | cons c m ih =>
    obtain ⟨b, v⟩ := c
    by_cases h : b < n
    · have e : Memory.keepBelow n ((b, v) :: m) = (b, v) :: Memory.keepBelow n m := by simp [Memory.keepBelow, h]
      rw [e]
      by_cases hab : a = b
      · subst hab
        simp [Memory.read, h]
      · simp only [Memory.read, if_neg hab]
        exact ih
    · have e : Memory.keepBelow n ((b, v) :: m) = Memory.keepBelow n m := by simp [Memory.keepBelow, h]
      rw [e, ih]
      by_cases hab : a = b
      · subst hab
        simp [h]
      · simp [Memory.read, hab]

end Sys2Proof.Machine
end

