-- ==== Sys2Proof/Laws/State.lean ====
section
/-! SUPPORT. One lemma per field and per update of the state, true by rfl, so that no proof unfolds a record update. -/

namespace Sys2Proof.Machine

/-! ## openMark -/

section
variable (s : State)

@[simp] theorem openMark_registers : (s.openMark).registers = s.registers := rfl
@[simp] theorem openMark_ram : (s.openMark).ram = s.ram := rfl
@[simp] theorem openMark_pc : (s.openMark).pc = s.pc := rfl
@[simp] theorem openMark_lastPc : (s.openMark).lastPc = s.lastPc := rfl
@[simp] theorem openMark_ir : (s.openMark).ir = s.ir := rfl
@[simp] theorem openMark_codeSegmentBoundary : (s.openMark).codeSegmentBoundary = s.codeSegmentBoundary := rfl
@[simp] theorem openMark_state : (s.openMark).state = s.state := rfl
@[simp] theorem openMark_mode : (s.openMark).mode = s.mode := rfl
@[simp] theorem openMark_readTarget : (s.openMark).readTarget = s.readTarget := rfl
@[simp] theorem openMark_undoLog : (s.openMark).undoLog = [] :: s.undoLog := rfl
@[simp] theorem openMark_output : (s.openMark).output = s.output := rfl
@[simp] theorem openMark_errors : (s.openMark).errors = s.errors := rfl

end

/-! ## putRegister -/

section
variable (s : State) (i : Nat) (v : Int)

@[simp] theorem putRegister_registers : (s.putRegister i v).registers = s.registers.setIfInBounds i v := rfl
@[simp] theorem putRegister_ram : (s.putRegister i v).ram = s.ram := rfl
@[simp] theorem putRegister_pc : (s.putRegister i v).pc = s.pc := rfl
@[simp] theorem putRegister_lastPc : (s.putRegister i v).lastPc = s.lastPc := rfl
@[simp] theorem putRegister_ir : (s.putRegister i v).ir = s.ir := rfl
@[simp] theorem putRegister_codeSegmentBoundary : (s.putRegister i v).codeSegmentBoundary = s.codeSegmentBoundary := rfl
@[simp] theorem putRegister_state : (s.putRegister i v).state = s.state := rfl
@[simp] theorem putRegister_mode : (s.putRegister i v).mode = s.mode := rfl
@[simp] theorem putRegister_readTarget : (s.putRegister i v).readTarget = s.readTarget := rfl
@[simp] theorem putRegister_undoLog : (s.putRegister i v).undoLog = pushEdit (.register i (s.registers.getD i 0)) s.undoLog := rfl
@[simp] theorem putRegister_output : (s.putRegister i v).output = s.output := rfl
@[simp] theorem putRegister_errors : (s.putRegister i v).errors = s.errors := rfl

end

/-! ## putRam -/

section
variable (s : State) (a : Nat) (v : Int)

@[simp] theorem putRam_registers : (s.putRam a v).registers = s.registers := rfl
@[simp] theorem putRam_ram : (s.putRam a v).ram = Memory.write s.ram a v := rfl
@[simp] theorem putRam_pc : (s.putRam a v).pc = s.pc := rfl
@[simp] theorem putRam_lastPc : (s.putRam a v).lastPc = s.lastPc := rfl
@[simp] theorem putRam_ir : (s.putRam a v).ir = s.ir := rfl
@[simp] theorem putRam_codeSegmentBoundary : (s.putRam a v).codeSegmentBoundary = s.codeSegmentBoundary := rfl
@[simp] theorem putRam_state : (s.putRam a v).state = s.state := rfl
@[simp] theorem putRam_mode : (s.putRam a v).mode = s.mode := rfl
@[simp] theorem putRam_readTarget : (s.putRam a v).readTarget = s.readTarget := rfl
@[simp] theorem putRam_undoLog : (s.putRam a v).undoLog = pushEdit (.ram a (Memory.read s.ram a)) s.undoLog := rfl
@[simp] theorem putRam_output : (s.putRam a v).output = s.output := rfl
@[simp] theorem putRam_errors : (s.putRam a v).errors = s.errors := rfl

end

/-! ## putPc -/

section
variable (s : State) (t : Nat)

@[simp] theorem putPc_registers : (s.putPc t).registers = s.registers := rfl
@[simp] theorem putPc_ram : (s.putPc t).ram = s.ram := rfl
@[simp] theorem putPc_pc : (s.putPc t).pc = t := rfl
@[simp] theorem putPc_lastPc : (s.putPc t).lastPc = s.lastPc := rfl
@[simp] theorem putPc_ir : (s.putPc t).ir = s.ir := rfl
@[simp] theorem putPc_codeSegmentBoundary : (s.putPc t).codeSegmentBoundary = s.codeSegmentBoundary := rfl
@[simp] theorem putPc_state : (s.putPc t).state = s.state := rfl
@[simp] theorem putPc_mode : (s.putPc t).mode = s.mode := rfl
@[simp] theorem putPc_readTarget : (s.putPc t).readTarget = s.readTarget := rfl
@[simp] theorem putPc_undoLog : (s.putPc t).undoLog = pushEdit (.pc s.pc) s.undoLog := rfl
@[simp] theorem putPc_output : (s.putPc t).output = s.output := rfl
@[simp] theorem putPc_errors : (s.putPc t).errors = s.errors := rfl

end

/-! ## putLastPc -/

section
variable (s : State) (t : Nat)

@[simp] theorem putLastPc_registers : (s.putLastPc t).registers = s.registers := rfl
@[simp] theorem putLastPc_ram : (s.putLastPc t).ram = s.ram := rfl
@[simp] theorem putLastPc_pc : (s.putLastPc t).pc = s.pc := rfl
@[simp] theorem putLastPc_lastPc : (s.putLastPc t).lastPc = t := rfl
@[simp] theorem putLastPc_ir : (s.putLastPc t).ir = s.ir := rfl
@[simp] theorem putLastPc_codeSegmentBoundary : (s.putLastPc t).codeSegmentBoundary = s.codeSegmentBoundary := rfl
@[simp] theorem putLastPc_state : (s.putLastPc t).state = s.state := rfl
@[simp] theorem putLastPc_mode : (s.putLastPc t).mode = s.mode := rfl
@[simp] theorem putLastPc_readTarget : (s.putLastPc t).readTarget = s.readTarget := rfl
@[simp] theorem putLastPc_undoLog : (s.putLastPc t).undoLog = pushEdit (.lastPc s.lastPc) s.undoLog := rfl
@[simp] theorem putLastPc_output : (s.putLastPc t).output = s.output := rfl
@[simp] theorem putLastPc_errors : (s.putLastPc t).errors = s.errors := rfl

end

/-! ## putIr -/

section
variable (s : State) (v : Int)

@[simp] theorem putIr_registers : (s.putIr v).registers = s.registers := rfl
@[simp] theorem putIr_ram : (s.putIr v).ram = s.ram := rfl
@[simp] theorem putIr_pc : (s.putIr v).pc = s.pc := rfl
@[simp] theorem putIr_lastPc : (s.putIr v).lastPc = s.lastPc := rfl
@[simp] theorem putIr_ir : (s.putIr v).ir = v := rfl
@[simp] theorem putIr_codeSegmentBoundary : (s.putIr v).codeSegmentBoundary = s.codeSegmentBoundary := rfl
@[simp] theorem putIr_state : (s.putIr v).state = s.state := rfl
@[simp] theorem putIr_mode : (s.putIr v).mode = s.mode := rfl
@[simp] theorem putIr_readTarget : (s.putIr v).readTarget = s.readTarget := rfl
@[simp] theorem putIr_undoLog : (s.putIr v).undoLog = pushEdit (.ir s.ir) s.undoLog := rfl
@[simp] theorem putIr_output : (s.putIr v).output = s.output := rfl
@[simp] theorem putIr_errors : (s.putIr v).errors = s.errors := rfl

end

/-! ## putState -/

section
variable (s : State) (r : RunState)

@[simp] theorem putState_registers : (s.putState r).registers = s.registers := rfl
@[simp] theorem putState_ram : (s.putState r).ram = s.ram := rfl
@[simp] theorem putState_pc : (s.putState r).pc = s.pc := rfl
@[simp] theorem putState_lastPc : (s.putState r).lastPc = s.lastPc := rfl
@[simp] theorem putState_ir : (s.putState r).ir = s.ir := rfl
@[simp] theorem putState_codeSegmentBoundary : (s.putState r).codeSegmentBoundary = s.codeSegmentBoundary := rfl
@[simp] theorem putState_state : (s.putState r).state = r := rfl
@[simp] theorem putState_mode : (s.putState r).mode = s.mode := rfl
@[simp] theorem putState_readTarget : (s.putState r).readTarget = s.readTarget := rfl
@[simp] theorem putState_undoLog : (s.putState r).undoLog = pushEdit (.state s.state) s.undoLog := rfl
@[simp] theorem putState_output : (s.putState r).output = s.output := rfl
@[simp] theorem putState_errors : (s.putState r).errors = s.errors := rfl

end

/-! ## putReadTarget -/

section
variable (s : State) (i : Nat)

@[simp] theorem putReadTarget_registers : (s.putReadTarget i).registers = s.registers := rfl
@[simp] theorem putReadTarget_ram : (s.putReadTarget i).ram = s.ram := rfl
@[simp] theorem putReadTarget_pc : (s.putReadTarget i).pc = s.pc := rfl
@[simp] theorem putReadTarget_lastPc : (s.putReadTarget i).lastPc = s.lastPc := rfl
@[simp] theorem putReadTarget_ir : (s.putReadTarget i).ir = s.ir := rfl
@[simp] theorem putReadTarget_codeSegmentBoundary : (s.putReadTarget i).codeSegmentBoundary = s.codeSegmentBoundary := rfl
@[simp] theorem putReadTarget_state : (s.putReadTarget i).state = s.state := rfl
@[simp] theorem putReadTarget_mode : (s.putReadTarget i).mode = s.mode := rfl
@[simp] theorem putReadTarget_readTarget : (s.putReadTarget i).readTarget = some i := rfl
@[simp] theorem putReadTarget_undoLog : (s.putReadTarget i).undoLog = s.undoLog := rfl
@[simp] theorem putReadTarget_output : (s.putReadTarget i).output = s.output := rfl
@[simp] theorem putReadTarget_errors : (s.putReadTarget i).errors = s.errors := rfl

end

/-! ## emit -/

section
variable (s : State) (v : Int)

@[simp] theorem emit_registers : (s.emit v).registers = s.registers := rfl
@[simp] theorem emit_ram : (s.emit v).ram = s.ram := rfl
@[simp] theorem emit_pc : (s.emit v).pc = s.pc := rfl
@[simp] theorem emit_lastPc : (s.emit v).lastPc = s.lastPc := rfl
@[simp] theorem emit_ir : (s.emit v).ir = s.ir := rfl
@[simp] theorem emit_codeSegmentBoundary : (s.emit v).codeSegmentBoundary = s.codeSegmentBoundary := rfl
@[simp] theorem emit_state : (s.emit v).state = s.state := rfl
@[simp] theorem emit_mode : (s.emit v).mode = s.mode := rfl
@[simp] theorem emit_readTarget : (s.emit v).readTarget = s.readTarget := rfl
@[simp] theorem emit_undoLog : (s.emit v).undoLog = s.undoLog := rfl
@[simp] theorem emit_output : (s.emit v).output = s.output ++ [v] := rfl
@[simp] theorem emit_errors : (s.emit v).errors = s.errors := rfl

end

end Sys2Proof.Machine
end

