-- ==== Sys2Proof/Laws/Ops.lean ====
section
/-! SUPPORT. One specification lemma per shared operation: when it answers and with what, and, read the other way, everything an answer
implies. -/

namespace Sys2Proof.Machine

/-! ## Values and registers -/

theorem VALID_iff {v : Int} : VALID v ↔ -32768 ≤ v ∧ v ≤ 65534 := by
  simp only [VALID, Config.INT_MIN, Config.INT_LIM]
  omega

theorem reg_zero (s : State) : s.reg 0 = 0 := rfl

theorem reg_of_ne {s : State} {i : Nat} (h : i ≠ 0) : s.reg i = s.registers.getD i 0 := by simp [State.reg, h]

/-- Two states with the same register file read alike. -/
theorem reg_congr {s t : State} (h : t.registers = s.registers) (i : Nat) : t.reg i = s.reg i := by
  simp [State.reg, h]

theorem getD_eq_getElem? (r : Vector Int Config.NUM_REGISTERS) (i : Nat) : r.getD i 0 = (r[i]?).getD 0 := by
  simp [Vector.getD]

theorem getD_setIfInBounds (r : Vector Int Config.NUM_REGISTERS) (i j : Nat) (v : Int) :
    (r.setIfInBounds i v).getD j 0 = if i = j ∧ i < 16 then v else r.getD j 0 := by
  simp only [getD_eq_getElem?, Vector.getElem?_setIfInBounds]
  by_cases hij : i = j
  · subst hij
    by_cases hi : i < 16
    · simp [hi]
    · simp [hi]
  · simp [hij]

/-- What a register reads after a register update. -/
theorem reg_putRegister (s : State) (i j : Nat) (v : Int) :
    (s.putRegister i v).reg j = if j = 0 then 0 else if i = j ∧ i < 16 then v else s.reg j := by
  by_cases hj : j = 0
  · simp [State.reg, hj]
  · simp only [State.reg, putRegister_registers, getD_setIfInBounds, hj, if_false]

/-- Putting the old value back undoes a register update. -/
theorem registers_restore (r : Vector Int Config.NUM_REGISTERS) (i : Nat) (v : Int) :
    (r.setIfInBounds i v).setIfInBounds i (r.getD i 0) = r := by
  ext j hj
  simp only [Vector.getElem_setIfInBounds]
  split
  · rename_i h
    subst h
    simp [getD_eq_getElem?, hj]
  · rfl

/-! ## The register file -/

theorem getReg_nat {n : Nat} (s : State) (h : n < 16) : getReg (n : Int) s = .ok (s.reg n) := by
  have : (0 : Int) ≤ n ∧ (n : Int) < 16 := by omega
  simp [getReg, this]

theorem getReg_bad {i : Int} (s : State) (h : ¬ (0 ≤ i ∧ i < 16)) : getReg i s = .error (.invalidRegister i) := by
  have h' : ¬ (0 ≤ i ∧ i < ((Config.NUM_REGISTERS : Nat) : Int)) := h
  simp only [getReg, if_neg h']

theorem getReg_ok {i v : Int} {s : State} (h : getReg i s = .ok v) : 0 ≤ i ∧ i < 16 ∧ v = s.reg i.toNat := by
  unfold getReg at h
  split at h
  · rename_i hi
    cases h
    exact ⟨hi.1, hi.2, rfl⟩
  · cases h

theorem setReg_valid {n : Nat} {v : Int} (s : State) (h : n < 16) (hv : VALID v) :
    setReg (n : Int) v s = .ok (if n = 0 then s else s.putRegister n v) := by
  have hi : ¬ ¬ ((0 : Int) ≤ n ∧ (n : Int) < ((Config.NUM_REGISTERS : Nat) : Int)) := by
    simp only [not_not]
    exact ⟨by omega, by simpa using h⟩
  simp only [setReg, if_neg hi, if_neg (not_not.mpr hv)]
  by_cases h0 : n = 0
  · simp [h0]
  · simp [h0]

theorem setReg_invalid {n : Nat} {v : Int} (s : State) (h : n < 16) (hv : ¬ VALID v) :
    setReg (n : Int) v s = .error (.integerOutOfRange v) := by
  have hi : ¬ ¬ ((0 : Int) ≤ n ∧ (n : Int) < ((Config.NUM_REGISTERS : Nat) : Int)) := by
    simp only [not_not]
    exact ⟨by omega, by simpa using h⟩
  simp only [setReg, if_neg hi, if_pos hv]

theorem setReg_bad {i : Int} (v : Int) (s : State) (h : ¬ (0 ≤ i ∧ i < 16)) :
    setReg i v s = .error (.invalidRegister i) := by
  have h' : ¬ (0 ≤ i ∧ i < ((Config.NUM_REGISTERS : Nat) : Int)) := h
  simp only [setReg, if_pos h']

/-- Everything a register write can do. -/
theorem setReg_ok {i v : Int} {s t : State} (h : setReg i v s = .ok t) :
    0 ≤ i ∧ i < 16 ∧ VALID v ∧ ((i = 0 ∧ t = s) ∨ (i ≠ 0 ∧ t = s.putRegister i.toNat v)) := by
  unfold setReg at h
  split at h
  · cases h
  · rename_i hi
    split at h
    · cases h
    · rename_i hv
      have hi' := not_not.mp hi
      have hv' := not_not.mp hv
      split at h
      · rename_i h0
        cases h
        exact ⟨hi'.1, hi'.2, hv', .inl ⟨h0, rfl⟩⟩
      · rename_i h0
        cases h
        exact ⟨hi'.1, hi'.2, hv', .inr ⟨h0, rfl⟩⟩

/-! ## Memory -/

theorem memRead_nat {n : Nat} (s : State) (h : n < 256) : memRead (n : Int) s = .ok (Memory.read s.ram n) := by
  have : (0 : Int) ≤ n ∧ (n : Int) < 256 := by omega
  simp [memRead, this]

theorem memRead_bad {a : Int} (s : State) (h : ¬ (0 ≤ a ∧ a < 256)) : memRead a s = .error (.invalidAddress a) := by
  have h' : ¬ (0 ≤ a ∧ a < ((Config.RAM_SIZE : Nat) : Int)) := h
  simp only [memRead, if_neg h']

theorem memRead_ok {a v : Int} {s : State} (h : memRead a s = .ok v) :
    0 ≤ a ∧ a < 256 ∧ v = Memory.read s.ram a.toNat := by
  unfold memRead at h
  split at h
  · rename_i ha
    cases h
    exact ⟨ha.1, ha.2, rfl⟩
  · cases h

theorem protectsCell_iff {s : State} {a : Int} :
    s.protectsCell a = true ↔ a < (s.codeSegmentBoundary : Int) ∧ s.mode = .SAFE := by
  simp [State.protectsCell]

theorem memWrite_free {n : Nat} {v : Int} (s : State) (h : n < 256) (hv : VALID v)
    (hp : s.mode = .SAFE → s.codeSegmentBoundary ≤ n) : memWrite (n : Int) v s = .ok (s.putRam n v) := by
  have hi : ¬ ¬ ((0 : Int) ≤ n ∧ (n : Int) < ((Config.RAM_SIZE : Nat) : Int)) := by
    simp only [not_not]
    exact ⟨by omega, by simpa using h⟩
  have hp' : ¬ s.protectsCell (n : Int) = true := by
    rw [protectsCell_iff]
    rintro ⟨h1, h2⟩
    have := hp h2
    omega
  simp only [memWrite, if_neg hi, if_neg (not_not.mpr hv), if_neg hp']
  simp

theorem memWrite_bad {a : Int} (v : Int) (s : State) (h : ¬ (0 ≤ a ∧ a < 256)) :
    memWrite a v s = .error (.invalidAddress a) := by
  have h' : ¬ (0 ≤ a ∧ a < ((Config.RAM_SIZE : Nat) : Int)) := h
  simp only [memWrite, if_pos h']

theorem memWrite_protected {a v : Int} (s : State) (h : 0 ≤ a ∧ a < 256) (hv : VALID v) (hm : s.mode = .SAFE)
    (hc : a < (s.codeSegmentBoundary : Int)) : memWrite a v s = .error (.codeSegmentWrite a) := by
  have hi : ¬ ¬ (0 ≤ a ∧ a < ((Config.RAM_SIZE : Nat) : Int)) := not_not.mpr h
  simp only [memWrite, if_neg hi, if_neg (not_not.mpr hv), if_pos (protectsCell_iff.mpr ⟨hc, hm⟩)]

/-- Everything a memory write can do. -/
theorem memWrite_ok {a v : Int} {s t : State} (h : memWrite a v s = .ok t) :
    0 ≤ a ∧ a < 256 ∧ VALID v ∧ (s.mode = .SAFE → (s.codeSegmentBoundary : Int) ≤ a) ∧ t = s.putRam a.toNat v := by
  unfold memWrite at h
  split at h
  · cases h
  · rename_i ha
    split at h
    · cases h
    · rename_i hv
      split at h
      · cases h
      · rename_i hp
        have ha' := not_not.mp ha
        rw [protectsCell_iff] at hp
        cases h
        refine ⟨ha'.1, ha'.2, not_not.mp hv, fun hm => ?_, rfl⟩
        by_contra hc
        exact hp ⟨by omega, hm⟩

/-! ## The program counter -/

theorem setPc_nat {n : Nat} (s : State) (h : n < 256) : setPc (n : Int) s = .ok (s.putPc n) := by
  have : (0 : Int) ≤ n ∧ (n : Int) < 256 := by omega
  simp [setPc, this]

theorem setPc_bad {t : Int} (s : State) (h : ¬ (0 ≤ t ∧ t < 256)) : setPc t s = .error (.invalidJumpTarget t) := by
  have h' : ¬ (0 ≤ t ∧ t < ((Config.RAM_SIZE : Nat) : Int)) := h
  simp only [setPc, if_neg h']

theorem setPc_ok {t : Int} {s u : State} (h : setPc t s = .ok u) : 0 ≤ t ∧ t < 256 ∧ u = s.putPc t.toNat := by
  unfold setPc at h
  split at h
  · rename_i ht
    cases h
    exact ⟨ht.1, ht.2, rfl⟩
  · cases h

theorem outsideCode_iff {s : State} {t : Int} :
    s.outsideCode t = true ↔ (s.codeSegmentBoundary : Int) ≤ t ∧ s.mode = .SAFE := by
  simp [State.outsideCode]

theorem jump_target {n : Nat} {s : State} (h : s.targetOk (n : Int)) : jump (n : Int) s = .ok (s.putPc n) := by
  obtain ⟨h0, h1, h2⟩ := h
  have hi : ¬ ¬ ((0 : Int) ≤ n ∧ (n : Int) < ((Config.RAM_SIZE : Nat) : Int)) := not_not.mpr ⟨h0, h1⟩
  have ho : ¬ s.outsideCode (n : Int) = true := by
    rw [outsideCode_iff]
    rintro ⟨h3, h4⟩
    have := h2 h4
    omega
  simp only [jump, if_neg hi, if_neg ho]
  simp

theorem jump_bad {t : Int} {s : State} (h : ¬ s.targetOk t) : jump t s = .error (.invalidJumpTarget t) := by
  unfold jump
  split
  · rfl
  · rename_i hi
    split
    · rfl
    · rename_i ho
      rw [outsideCode_iff] at ho
      have hi' := not_not.mp hi
      refine absurd ⟨hi'.1, hi'.2, fun hm => ?_⟩ h
      by_contra hc
      exact ho ⟨by omega, hm⟩

/-- Everything a jump can do. -/
theorem jump_ok {t : Int} {s u : State} (h : jump t s = .ok u) : s.targetOk t ∧ u = s.putPc t.toNat := by
  by_cases ht : s.targetOk t
  · refine ⟨ht, ?_⟩
    obtain ⟨n, rfl⟩ := Int.eq_ofNat_of_zero_le ht.1
    rw [jump_target ht] at h
    cases h
    simp
  · rw [jump_bad ht] at h
    cases h

/-! ## Fault entry -/

@[simp] theorem commit_ok (s t : State) : s.commit (.ok t) = t := rfl
@[simp] theorem commit_error (s : State) (k : Fault) : s.commit (.error k) = s.takeFault k := rfl
@[simp] theorem finish_ok (s t : State) : finish s (.ok t) = .next t := rfl
@[simp] theorem finish_error (s : State) (k : Fault) : finish s (.error k) = .next (s.takeFault k) := rfl

theorem finish_next (s : State) (r : Except Fault State) : finish s r = .next (s.commit r) := rfl

@[simp] theorem takeFault_state (s : State) (k : Fault) : (s.takeFault k).state = .ERROR := rfl

/-- With an empty newest group there is nothing to unwind. -/
theorem takeFault_openMark (s : State) (k : Fault) : s.openMark.takeFault k = s.afterFault k := rfl

/-- Reverse-applying edits touches none of these fields. -/
theorem revertGroup_keeps (g : List Edit) (s : State) :
    (revertGroup g s).codeSegmentBoundary = s.codeSegmentBoundary ∧ (revertGroup g s).mode = s.mode
      ∧ (revertGroup g s).readTarget = s.readTarget ∧ (revertGroup g s).output = s.output
      ∧ (revertGroup g s).errors = s.errors ∧ (revertGroup g s).undoLog = s.undoLog := by
  induction g generalizing s with
  | nil => exact ⟨rfl, rfl, rfl, rfl, rfl, rfl⟩
  | cons e g ih =>
    have h := ih (e.revert s)
    cases e <;> exact h

end Sys2Proof.Machine
end

