-- ==== Sys2Proof/Laws/Effect.lean ====
section
/-! SUPPORT. Everything an instruction can do, said once: exec always ends in the commit of an outcome, and an outcome without a fault
is one of the effects listed here. Frames, invariants and whole-machine rules follow from it by cases. -/

namespace Sys2Proof.Machine

/-- The effects an Operation can have on the state it starts from. -/
inductive Effect (i : Instr) (s : State) : State → Prop where
  | halts : i = .halt → s.lastPc < 256 → Effect i s ((s.putState .HALT).putPc s.lastPc)
  | waits (x : Nat) : i = .read x → Effect i s ((s.putReadTarget x).putState .WAIT)
  | emits (x : Nat) : i = .write x → x < 16 → Effect i s (s.emit (s.reg x))
  | nothing : i ≠ .halt → (∀ x, i ≠ .read x) → (∀ x, i ≠ .write x) → Effect i s s
  | writesRegister (x : Nat) (v : Int) : destination i = some x → x ≠ 0 → x < 16 → VALID v →
      Effect i s (s.putRegister x v)
  | stores (a : Nat) (v : Int) : (∃ x n, i = .storen x n ∨ i = .storer x n) → storedAddress i s = some (a : Int) →
      a < 256 → VALID v → (s.mode = .SAFE → s.codeSegmentBoundary ≤ a) → Effect i s (s.putRam a v)
  | jumps (n : Nat) : destination i = none ∨ (∃ m, i = .calln 0 m) → (∀ x m, i ≠ .storen x m ∧ i ≠ .storer x m) →
      i ≠ .halt → (∀ x, i ≠ .read x) → (∀ x, i ≠ .write x) → s.targetOk (n : Int) → Effect i s (s.putPc n)
  | calls (x n : Nat) : i = .calln x n → x ≠ 0 → x < 16 → VALID (s.pc : Int) → s.targetOk (n : Int) →
      Effect i s ((s.putRegister x s.pc).putPc n)

theorem bind_ok {α β : Type} {x : Except Fault α} {f : α → Except Fault β} {b : β} (h : (x >>= f) = .ok b) :
    ∃ a, x = .ok a ∧ f a = .ok b := by
  cases x with
  | error k => cases h
  | ok a => exact ⟨a, rfl, h⟩

theorem sourceReg_ok {r : Nat} {v : Int} {s : State} (h : sourceReg r s = .ok v) : r < 16 ∧ v = s.reg r := by
  have := getReg_ok h
  exact ⟨by omega, by simpa using this.2.2⟩

theorem sourceReg_nat {r : Nat} (s : State) (h : r < 16) : sourceReg r s = .ok (s.reg r) := getReg_nat s h

theorem destReg_valid {r : Nat} {v : Int} (s : State) (h : r < 16) (hv : VALID v) :
    destReg r v s = .ok (if r = 0 then s else s.putRegister r v) := setReg_valid s h hv

theorem destReg_invalid {r : Nat} {v : Int} (s : State) (h : r < 16) (hv : ¬ VALID v) :
    destReg r v s = .error (.integerOutOfRange v) := setReg_invalid s h hv

/-- A destination register's write, as an effect. -/
theorem destReg_ok {r : Nat} {v : Int} {s t : State} (h : destReg r v s = .ok t) :
    r < 16 ∧ VALID v ∧ ((r = 0 ∧ t = s) ∨ (r ≠ 0 ∧ t = s.putRegister r v)) := by
  obtain ⟨_, h1, hv, h2⟩ := setReg_ok h
  refine ⟨by omega, hv, ?_⟩
  rcases h2 with ⟨h2, rfl⟩ | ⟨h2, rfl⟩
  · exact .inl ⟨by omega, rfl⟩
  · exact .inr ⟨by omega, by simp⟩

theorem effect_of_destReg {i : Instr} {r : Nat} {v : Int} {s t : State} (hd : destination i = some r)
    (hn : i ≠ .halt ∧ (∀ x, i ≠ .read x) ∧ ∀ x, i ≠ .write x) (h : destReg r v s = .ok t) : Effect i s t := by
  obtain ⟨hr, hv, ⟨-, rfl⟩ | ⟨h0, rfl⟩⟩ := destReg_ok h
  · exact .nothing hn.1 hn.2.1 hn.2.2
  · exact .writesRegister r v hd h0 hr hv

theorem effect_of_threeRegister {f : Int → Int → Except Fault Int} {i : Instr} {x y z : Nat} {s t : State}
    (hd : destination i = some x) (hn : i ≠ .halt ∧ (∀ x, i ≠ .read x) ∧ ∀ x, i ≠ .write x)
    (h : threeRegister f x y z s = .ok t) : Effect i s t := by
  unfold threeRegister at h
  obtain ⟨a, -, h⟩ := bind_ok h
  obtain ⟨b, -, h⟩ := bind_ok h
  obtain ⟨v, -, h⟩ := bind_ok h
  exact effect_of_destReg hd hn h

theorem effect_of_memWrite {i : Instr} {a v : Int} {s t : State} (hi : ∃ x n, i = .storen x n ∨ i = .storer x n)
    (ha : storedAddress i s = some a) (h : memWrite a v s = .ok t) : Effect i s t := by
  obtain ⟨h0, h1, hv, hp, rfl⟩ := memWrite_ok h
  obtain ⟨n, rfl⟩ := Int.eq_ofNat_of_zero_le h0
  simp only [Int.toNat_natCast] at *
  exact .stores n v hi ha (by omega) hv (fun hm => by have := hp hm; omega)

theorem effect_of_jump {i : Instr} {t : Int} {s u : State} (hd : destination i = none)
    (hs : ∀ x m, i ≠ .storen x m ∧ i ≠ .storer x m)
    (hn : i ≠ .halt ∧ (∀ x, i ≠ .read x) ∧ ∀ x, i ≠ .write x) (h : jump t s = .ok u) : Effect i s u := by
  obtain ⟨ht, rfl⟩ := jump_ok h
  obtain ⟨n, rfl⟩ := Int.eq_ofNat_of_zero_le ht.1
  simp only [Int.toNat_natCast] at *
  exact .jumps n (.inl hd) hs hn.1 hn.2.1 hn.2.2 ht

theorem effect_of_jumpIf {c : Condition} {i : Instr} {x n : Nat} {s u : State} (hd : destination i = none)
    (hs : ∀ x m, i ≠ .storen x m ∧ i ≠ .storer x m)
    (hn : i ≠ .halt ∧ (∀ x, i ≠ .read x) ∧ ∀ x, i ≠ .write x) (h : jumpIf c x n s = .ok u) : Effect i s u := by
  unfold jumpIf at h
  obtain ⟨v, -, h⟩ := bind_ok h
  split at h
  · exact effect_of_jump hd hs hn h
  · cases h
    exact .nothing hn.1 hn.2.1 hn.2.2

/-- `exec` is the commit of an outcome; a fault-free outcome is one of the effects. -/
theorem exec_outcome (i : Instr) (s : State) :
    ∃ r, exec i s = .next (s.commit r) ∧ ∀ t, r = .ok t → Effect i s t := by
  cases i with
  | halt =>
    refine ⟨_, rfl, fun t h => ?_⟩
    obtain ⟨_, h1, rfl⟩ := setPc_ok h
    exact .halts rfl (by omega)
  | read x =>
    refine ⟨_, rfl, fun t h => ?_⟩
    cases h
    exact .waits x rfl
  | write x =>
    refine ⟨_, rfl, fun t h => ?_⟩
    obtain ⟨v, hv, h⟩ := bind_ok h
    obtain ⟨hx, rfl⟩ := sourceReg_ok hv
    cases h
    exact .emits x rfl hx
  | jumpr x =>
    refine ⟨_, rfl, fun t h => ?_⟩
    obtain ⟨v, -, h⟩ := bind_ok h
    exact effect_of_jump rfl (by simp) (by simp) h
  | setn x n => exact ⟨_, rfl, fun t h => effect_of_destReg rfl (by simp) h⟩
  | loadn x n =>
    refine ⟨_, rfl, fun t h => ?_⟩
    obtain ⟨v, -, h⟩ := bind_ok h
    exact effect_of_destReg rfl (by simp) h
  | storen x n =>
    refine ⟨_, rfl, fun t h => ?_⟩
    obtain ⟨v, -, h⟩ := bind_ok h
    exact effect_of_memWrite ⟨x, n, .inl rfl⟩ rfl h
  | loadr x y =>
    refine ⟨_, rfl, fun t h => ?_⟩
    obtain ⟨a, -, h⟩ := bind_ok h
    obtain ⟨v, -, h⟩ := bind_ok h
    exact effect_of_destReg rfl (by simp) h
  | storer x y =>
    refine ⟨_, rfl, fun t h => ?_⟩
    obtain ⟨a, ha, h⟩ := bind_ok h
    obtain ⟨v, -, h⟩ := bind_ok h
    exact effect_of_memWrite ⟨x, y, .inr rfl⟩ (by simp [storedAddress, ha, Except.toOption]) h
  | addn x n =>
    refine ⟨_, rfl, fun t h => ?_⟩
    obtain ⟨v, -, h⟩ := bind_ok h
    exact effect_of_destReg rfl (by simp) h
  | nop =>
    refine ⟨_, rfl, fun t h => ?_⟩
    cases h
    exact .nothing (by simp) (by simp) (by simp)
  | copy x y =>
    refine ⟨_, rfl, fun t h => ?_⟩
    obtain ⟨v, -, h⟩ := bind_ok h
    exact effect_of_destReg rfl (by simp) h
  | add x y z => exact ⟨_, rfl, fun t h => effect_of_threeRegister rfl (by simp) h⟩
  | neg x y =>
    refine ⟨_, rfl, fun t h => ?_⟩
    obtain ⟨v, -, h⟩ := bind_ok h
    exact effect_of_destReg rfl (by simp) h
  | sub x y z => exact ⟨_, rfl, fun t h => effect_of_threeRegister rfl (by simp) h⟩
  | mul x y z => exact ⟨_, rfl, fun t h => effect_of_threeRegister rfl (by simp) h⟩
  | div x y z => exact ⟨_, rfl, fun t h => effect_of_threeRegister rfl (by simp) h⟩
  | mod x y z => exact ⟨_, rfl, fun t h => effect_of_threeRegister rfl (by simp) h⟩
  | jumpn n => exact ⟨_, rfl, fun t h => effect_of_jump rfl (by simp) (by simp) h⟩
  | calln x n =>
    refine ⟨_, rfl, fun t h => ?_⟩
    obtain ⟨u, hu, hj⟩ := bind_ok h
    have ht := jump_ok (t := (n : Int)) (s := u) (u := t) hj
    rw [Int.toNat_natCast] at ht
    obtain ⟨ht, rfl⟩ := ht
    obtain ⟨hx, hv, ⟨rfl, rfl⟩ | ⟨h0, rfl⟩⟩ := destReg_ok hu
    · exact .jumps n (.inr ⟨n, rfl⟩) (by simp) (by simp) (by simp) (by simp) ht
    · exact .calls x n rfl h0 hx hv ht
  | jeqzn x n => exact ⟨_, rfl, fun t h => effect_of_jumpIf rfl (by simp) (by simp) h⟩
  | jnezn x n => exact ⟨_, rfl, fun t h => effect_of_jumpIf rfl (by simp) (by simp) h⟩
  | jgtzn x n => exact ⟨_, rfl, fun t h => effect_of_jumpIf rfl (by simp) (by simp) h⟩
  | jltzn x n => exact ⟨_, rfl, fun t h => effect_of_jumpIf rfl (by simp) (by simp) h⟩

/-- The next state of `exec`: one of the effects, or fault entry. -/
theorem exec_cases {i : Instr} {s t : State} (h : exec i s = .next t) : Effect i s t ∨ ∃ k, t = s.takeFault k := by
  obtain ⟨r, hr, he⟩ := exec_outcome i s
  rw [hr] at h
  cases r with
  | ok u =>
    cases h
    exact .inl (he _ rfl)
  | error k =>
    cases h
    exact .inr ⟨k, rfl⟩

end Sys2Proof.Machine
end

