-- ==== Sys2Proof/Laws/HostCalls.lean ====
section
/-! SUPPORT. What the readers of the host's texts answer, said by the grammar of Sys2Proof/Safety.lean: one lemma for each function
that a statement about an image or an input goes through. -/

namespace Sys2Proof.Machine

/-! ## Digits -/

/-- The digits of a base, by the value of each. -/
theorem isDigit_iff {base : Nat} {c : Char} {d : Nat} :
    IsDigit base c d ↔ d < base ∧ ((d < 10 ∧ c.toNat = 48 + d)
      ∨ (10 ≤ d ∧ d < 16 ∧ (c.toNat = 87 + d ∨ c.toNat = 55 + d))) := by
  have ext (e : Char) : e = c ↔ c.toNat = e.toNat := by rw [Char.toNat_inj]; exact eq_comm
  unfold IsDigit
  refine and_congr_right fun _ => ?_
  by_cases hd : d < 16
  · interval_cases d <;> simp [ext]
  · simp [hd]
    omega

theorem decimalDigit_iff {c : Char} {d : Nat} : decimalDigit c = some d ↔ IsDigit 10 c d := by
  rw [isDigit_iff]
  unfold decimalDigit
  split <;> simp <;> omega

theorem hexDigit_iff {c : Char} {d : Nat} : hexDigit c = some d ↔ IsDigit 16 c d := by
  rw [isDigit_iff]
  unfold hexDigit
  split
  · simp; omega
  split
  · simp; omega
  split <;> simp <;> omega

theorem binaryDigit_iff {c : Char} {d : Nat} : binaryDigit c = some d ↔ IsDigit 2 c d := by
  have h0 : c = '0' ↔ c.toNat = 48 := by rw [← Char.toNat_inj]; rfl
  have h1 : c = '1' ↔ c.toNat = 49 := by rw [← Char.toNat_inj]; rfl
  rw [isDigit_iff]
  unfold binaryDigit
  simp only [h0, h1]
  split
  · simp; omega
  split <;> simp <;> omega

/-! ## Numerals -/

/-- A numeral has a digit. -/
theorem IsNumeral.ne_nil {base : Nat} {cs : List Char} {n : Nat} (h : IsNumeral base cs n) : cs ≠ [] := by
  cases h <;> simp

/-- Reading one more digit at the end. -/
theorem numeral_snoc (digit : Char → Option Nat) (base : Nat) (cs : List Char) (c : Char) (acc : Nat) :
    numeral digit base (cs ++ [c]) acc
      = (numeral digit base cs acc).bind (fun n => (digit c).map (fun d => n * base + d)) := by
  induction cs generalizing acc with
  | nil => simp only [List.nil_append, numeral]; cases digit c <;> rfl
  | cons b bs ih => simp only [List.cons_append, numeral]; cases digit b <;> simp [ih]

/-- `numeral` from nothing reads exactly the numerals, when there is a character at all. -/
theorem numeral_iff {digit : Char → Option Nat} {base : Nat} (hd : ∀ c d, digit c = some d ↔ IsDigit base c d)
    {cs : List Char} (hne : cs ≠ []) {n : Nat} : numeral digit base cs 0 = some n ↔ IsNumeral base cs n := by
  constructor
  · induction cs using List.reverseRecOn generalizing n with
    | nil => exact absurd rfl hne
    | append_singleton cs c ih =>
      rw [numeral_snoc]
      intro h
      obtain ⟨m, hm, h⟩ := Option.bind_eq_some_iff.mp h
      obtain ⟨d, hc, rfl⟩ := Option.map_eq_some_iff.mp h
      by_cases hcs : cs = []
      · subst hcs
        obtain rfl : 0 = m := Option.some.inj hm
        simpa using IsNumeral.digit ((hd c d).mp hc)
      · exact .snoc (ih hcs hm) ((hd c d).mp hc)
  · intro h
    induction h with
    | digit h => simp [numeral, (hd _ _).mpr h]
    | @snoc cs n c d h hc ih =>
      simp [numeral_snoc, ih h.ne_nil, (hd _ _).mpr hc]

/-! ## Lines -/

theorem splitLines_ne_nil (cs : List Char) : splitLines cs ≠ [] := by
  cases cs with
  | nil => simp [splitLines]
  | cons c cs => unfold splitLines; split <;> [simp; (split <;> simp)]

theorem splitLines_cons_newline (rest : List Char) : splitLines ('\n' :: rest) = [] :: splitLines rest := by
  cases h : splitLines rest with
  | nil => exact absurd h (splitLines_ne_nil rest)
  | cons => simp [splitLines, h]

theorem splitLines_cons {c : Char} (hc : c ≠ '\n') {cs l : List Char} {ls : List (List Char)}
    (h : splitLines cs = l :: ls) : splitLines (c :: cs) = (c :: l) :: ls := by simp [splitLines, h, hc]

/-- A text without a newline is one line. -/
theorem splitLines_of_notMem {l : List Char} (h : '\n' ∉ l) : splitLines l = [l] := by
  induction l with
  | nil => rfl
  | cons c cs ih =>
    rw [List.mem_cons, not_or] at h
    exact splitLines_cons (Ne.symm h.1) (ih h.2)

/-- A newline ends the first line. -/
theorem splitLines_newline {l : List Char} (h : '\n' ∉ l) (rest : List Char) :
    splitLines (l ++ '\n' :: rest) = l :: splitLines rest := by
  induction l with
  | nil => exact splitLines_cons_newline rest
  | cons c cs ih =>
    rw [List.mem_cons, not_or] at h
    exact splitLines_cons (Ne.symm h.1) (ih h.2)

/-- Splitting gives back the lines a text was made of. -/
theorem splitLines_textOfLines {lines : List (List Char)} (hne : lines ≠ []) (h : ∀ l ∈ lines, '\n' ∉ l) :
    splitLines (textOfLines lines).toList = lines := by
  rw [textOfLines, String.toList_ofList]
  induction lines with
  | nil => exact absurd rfl hne
  | cons l ls ih =>
    cases ls with
    | nil => simpa using splitLines_of_notMem (h l (by simp))
    | cons k ks =>
      rw [List.intercalate_cons_cons, List.append_assoc]
      have := ih (by simp) (fun m hm => h m (List.mem_cons_of_mem _ hm))
      rw [List.singleton_append, splitLines_newline (h l (by simp)), this]

/-- Every text is the text of its lines, none of which holds a newline. -/
theorem textOfLines_splitLines (text : String) :
    textOfLines (splitLines text.toList) = text ∧ ∀ l ∈ splitLines text.toList, '\n' ∉ l := by
  suffices h : ∀ cs, ['\n'].intercalate (splitLines cs) = cs ∧ ∀ l ∈ splitLines cs, '\n' ∉ l by
    exact ⟨by rw [textOfLines, (h _).1, String.ofList_toList], (h _).2⟩
  intro cs
  induction cs with
  | nil => simp [splitLines]
  | cons c cs ih =>
    cases h : splitLines cs with
    | nil => exact absurd h (splitLines_ne_nil cs)
    | cons l ls =>
      rw [h] at ih
      by_cases hc : c = '\n'
      · subst hc
        rw [splitLines_cons_newline, h, List.intercalate_cons_cons, ih.1]
        exact ⟨rfl, fun m hm => by
          rcases List.mem_cons.mp hm with rfl | hm
          · simp
          · exact ih.2 m hm⟩
      · rw [splitLines_cons hc h]
        refine ⟨?_, fun m hm => ?_⟩
        · cases ls with
          | nil => simpa using ih.1
          | cons k ks => simpa [List.intercalate_cons_cons] using ih.1
        · rcases List.mem_cons.mp hm with rfl | hm
          · simpa [Ne.symm hc] using ih.2 l (by simp)
          · exact ih.2 m (List.mem_cons_of_mem _ hm)

/-- Nothing is left of a line once its spaces are stripped exactly when it is blank. -/
theorem stripSpaces_eq_nil {l : List Char} : stripSpaces l = [] ↔ IsBlankLine l := by
  simp [stripSpaces, IsBlankLine]

/-- What the reader of one line accepts. -/
theorem parseImageLine_iff {l : List Char} {w : Int} :
    parseImageLine (stripSpaces l) = some w ↔ ∃ n : Nat, IsWordLine l n ∧ VALID n ∧ w = n := by
  unfold parseImageLine IsWordLine
  change (if (l.filter (· ≠ ' ')).length = 16 then
    match numeral binaryDigit 2 (l.filter (· ≠ ' ')) 0 with
    | none => none
    | some n => if VALID (n : Int) then some (n : Int) else none
    else none) = some w ↔ _
  split
  case isTrue hl =>
    have hne : l.filter (· ≠ ' ') ≠ [] := by intro h; rw [h] at hl; cases hl
    have key {n : Nat} := numeral_iff (fun c d => binaryDigit_iff) hne (n := n)
    simp only [hl, true_and, ← key]
    cases numeral binaryDigit 2 (l.filter (· ≠ ' ')) 0 with
    | none => simp
    | some n => by_cases hv : VALID (n : Int) <;> simp [hv, eq_comm]
  case isFalse hl => exact ⟨nofun, fun ⟨_, h, _⟩ => absurd h.1 hl⟩

end Sys2Proof.Machine
end

