-- ==== Sys2Proof/Laws/PerInstr.lean ====
section
/-! SUPPORT. What holds of every instruction as syntax, said constructor by constructor: the row of the table that bears its name (30_encoding.md
R75) has one field for each of its operands, padding left out, and binding the operands (40_dispatch.md R126) gives the instruction back. -/

namespace Sys2Proof.Laws.OperandsFit

/-- The name of `i` has a row in the table; its signature without padding is as long as the operands of `i`; the operands
bind to `i`. -/
def Statement (i : Instr) : Prop :=
  ((signatureOf i.opName).map (fun sig => (sig.filter (fun c => decide (c ≠ .z))).length)) = some i.operands.length
    ∧ Instr.ofOperands i.opName i.operands = some i

theorem halt : Statement .halt := ⟨rfl, rfl⟩
theorem read (x : Nat) : Statement (.read x) := ⟨rfl, rfl⟩
theorem write (x : Nat) : Statement (.write x) := ⟨rfl, rfl⟩
theorem jumpr (x : Nat) : Statement (.jumpr x) := ⟨rfl, rfl⟩
theorem setn (x : Nat) (n : Int) : Statement (.setn x n) := ⟨rfl, rfl⟩
theorem loadn (x n : Nat) : Statement (.loadn x n) := ⟨rfl, rfl⟩
theorem storen (x n : Nat) : Statement (.storen x n) := ⟨rfl, rfl⟩
theorem loadr (x y : Nat) : Statement (.loadr x y) := ⟨rfl, rfl⟩
theorem storer (x y : Nat) : Statement (.storer x y) := ⟨rfl, rfl⟩
theorem addn (x : Nat) (n : Int) : Statement (.addn x n) := ⟨rfl, rfl⟩
theorem nop : Statement .nop := ⟨rfl, rfl⟩
theorem copy (x y : Nat) : Statement (.copy x y) := ⟨rfl, rfl⟩
theorem add (x y z : Nat) : Statement (.add x y z) := ⟨rfl, rfl⟩
theorem neg (x y : Nat) : Statement (.neg x y) := ⟨rfl, rfl⟩
theorem sub (x y z : Nat) : Statement (.sub x y z) := ⟨rfl, rfl⟩
theorem mul (x y z : Nat) : Statement (.mul x y z) := ⟨rfl, rfl⟩
theorem div (x y z : Nat) : Statement (.div x y z) := ⟨rfl, rfl⟩
theorem mod (x y z : Nat) : Statement (.mod x y z) := ⟨rfl, rfl⟩
theorem jumpn (n : Nat) : Statement (.jumpn n) := ⟨rfl, rfl⟩
theorem calln (x n : Nat) : Statement (.calln x n) := ⟨rfl, rfl⟩
theorem jeqzn (x n : Nat) : Statement (.jeqzn x n) := ⟨rfl, rfl⟩
theorem jnezn (x n : Nat) : Statement (.jnezn x n) := ⟨rfl, rfl⟩
theorem jgtzn (x n : Nat) : Statement (.jgtzn x n) := ⟨rfl, rfl⟩
theorem jltzn (x n : Nat) : Statement (.jltzn x n) := ⟨rfl, rfl⟩

end Sys2Proof.Laws.OperandsFit
end

