-- ==== Sys2Proof/Laws/Step.lean ====
section
/-! SUPPORT. What the instruction cycle can do before the Operation, and the step as a whole. -/

namespace Sys2Proof.Machine

/-- The state an Operation starts from (R122): the fetched cell in `ir`, `lastPc` and `pc` set, state RUN, and the cycle's own
edits in the newest group of the log. -/
def State.fetched (s : State) : State :=
  { s with
    state := .RUN
    ir := Memory.read s.ram s.pc
    lastPc := s.pc
    pc := s.pc + 1
    undoLog := [.pc s.pc, .lastPc s.lastPc, .ir s.ir, .state s.state] :: s.undoLog }

/-- Fault entry from the state an Operation starts in leaves the state before the step, but for ERROR (R200). -/
theorem takeFault_fetched (s : State) (k : Fault) : s.fetched.takeFault k = s.afterFault k := rfl

/-- Fault entry before the fetch has changed anything. -/
theorem takeFault_enterStep (s : State) (k : Fault) : s.enterStep.takeFault k = s.afterFault k := rfl

theorem fetchDecode_cases (s : State) :
    (∃ k, fetchDecode s.enterStep = .error k) ∨
    (∃ i, fetchDecode s.enterStep = .ok (i, s.fetched) ∧ decode (u16 (Memory.read s.ram s.pc)) = .ok i
      ∧ (s.mode = .SAFE → s.pc < s.codeSegmentBoundary) ∧ s.pc < 255) := by
  cases h : fetchDecode s.enterStep with
  | error k => exact .inl ⟨k, rfl⟩
  | ok p =>
    refine .inr ?_
    obtain ⟨t, ht, h⟩ := bind_ok h
    obtain ⟨_, hf, ht⟩ := bind_ok ht
    obtain ⟨v, hv, ht⟩ := bind_ok ht
    have hv' := (memRead_ok hv).2.2
    cases ht
    have hsafe : s.mode = .SAFE → s.pc < s.codeSegmentBoundary := by
      intro hm
      by_contra hc
      have ho : (s.enterStep).outsideCode ((s.enterStep).pc : Int) = true :=
        outsideCode_iff.mpr ⟨by simp only [State.enterStep, putState_pc, openMark_pc, putState_codeSegmentBoundary,
          openMark_codeSegmentBoundary]; omega, hm⟩
      unfold fetchTest at hf
      rw [if_pos ho] at hf
      cases hf
    split at h
    · cases h
    · rename_i i hi
      obtain ⟨u, hu, h⟩ := bind_ok h
      cases h
      obtain ⟨_, h1, rfl⟩ := setPc_ok hu
      have hpc : (s.enterStep.putIr v).pc = s.pc := rfl
      have hram : s.enterStep.ram = s.ram := rfl
      have hpc2 : s.enterStep.pc = s.pc := rfl
      rw [hpc] at h1
      rw [hram, hpc2, Int.toNat_natCast] at hv'
      subst hv'
      refine ⟨i, ?_, hi, hsafe, by omega⟩
      have e : (((s.enterStep.putIr (Memory.read s.ram s.pc)).pc : Int) + 1).toNat = s.pc + 1 := by
        rw [hpc]
        omega
      rw [e]
      rfl

/-- Everything `prepare` can do when it dispatches nothing: the call is refused, or the cycle faults. -/
theorem prepare_done {s t : State} (h : prepare s = .done t) :
    (s.state.isActive = false ∧ t = s) ∨ (s.state.isActive = true ∧ ∃ k, t = s.afterFault k) := by
  unfold prepare at h
  split at h
  · rename_i ha
    split at h
    · rename_i k _
      cases h
      exact .inr ⟨ha, k, takeFault_enterStep s k⟩
    · cases h
  · rename_i ha
    cases h
    exact .inl ⟨by simpa using ha, rfl⟩

/-- Everything `prepare` implies when it dispatches an instruction. -/
theorem prepare_run {s u : State} {i : Instr} (h : prepare s = .run i u) :
    s.state.isActive = true ∧ (s.mode = .SAFE → s.pc < s.codeSegmentBoundary) ∧ s.pc < 255
      ∧ decode (u16 (Memory.read s.ram s.pc)) = .ok i ∧ u = s.fetched := by
  unfold prepare at h
  split at h
  · rename_i ha
    rcases fetchDecode_cases s with ⟨k, hk⟩ | ⟨j, hj, hd, hs, hp⟩
    · rw [hk] at h
      cases h
    · rw [hj] at h
      cases h
      exact ⟨ha, hs, hp, hd, rfl⟩
  · cases h

theorem step_run {s u : State} {i : Instr} (h : prepare s = .run i u) : step s = exec i u := by simp [step, h]

theorem step_done {s t : State} (h : prepare s = .done t) : step s = .next t := by simp [step, h]

/-- Everything a step can do. -/
theorem step_cases {s t : State} (h : step s = .next t) :
    (s.state.isActive = false ∧ t = s) ∨
    (s.state.isActive = true ∧ ∃ k, t = s.afterFault k) ∨
    (s.state.isActive = true ∧ ∃ i, prepare s = .run i s.fetched ∧ Effect i s.fetched t) := by
  cases hp : prepare s with
  | done u =>
    rw [step_done hp] at h
    cases h
    rcases prepare_done hp with h | h
    · exact .inl h
    · exact .inr (.inl h)
  | run i u =>
    rw [step_run hp] at h
    obtain ⟨ha, -, -, -, rfl⟩ := prepare_run hp
    rcases exec_cases h with he | ⟨k, rfl⟩
    · exact .inr (.inr ⟨ha, i, rfl, he⟩)
    · exact .inr (.inl ⟨ha, k, takeFault_fetched s k⟩)

end Sys2Proof.Machine
end

