-- ==== Sys2Proof/Tests/Slice0.lean ====
section
/-! SUPPORT. Tests of one step each, with the results of 95_test_vectors.md (parts 1 and 2) and of the rules' own examples, and a
witness for the hypotheses of every obligation that has some. -/

namespace Sys2Proof.Tests

open Sys2Proof Sys2Proof.Machine

/-! ## Well-formedness refuses ill-formed terms (R87, R103, R115) -/

theorem test_wf_register_operand :
    (Instr.read 15).wf = true ∧ (Instr.read 16).wf = false ∧ (Instr.write 16).wf = false ∧ (Instr.jumpr 16).wf = false
    ∧ (Instr.add 16 0 0).wf = false ∧ (Instr.add 0 16 0).wf = false ∧ (Instr.add 0 0 16).wf = false
    ∧ (Instr.copy 0 16).wf = false ∧ (Instr.neg 16 0).wf = false ∧ (Instr.calln 16 0).wf = false := by decide

theorem test_wf_signed_operand :
    (Instr.setn 1 (-128)).wf = true ∧ (Instr.setn 1 127).wf = true ∧ (Instr.setn 1 (-129)).wf = false
    ∧ (Instr.setn 1 128).wf = false ∧ (Instr.addn 1 (-129)).wf = false ∧ (Instr.addn 1 128).wf = false
    ∧ (Instr.setn 16 0).wf = false := by decide

theorem test_wf_unsigned_operand :
    (Instr.jumpn 255).wf = true ∧ (Instr.jumpn 256).wf = false ∧ (Instr.loadn 1 256).wf = false
    ∧ (Instr.storen 1 256).wf = false ∧ (Instr.jeqzn 1 256).wf = false ∧ (Instr.jltzn 16 0).wf = false := by decide

/-! ## Decoding: a word of every constructor, written out from R74 and R75 -/

theorem test_decode_system :
    decode 0b0000000000000000#16 = .ok .halt ∧ decode 0b0000000100000001#16 = .ok (.read 1)
    ∧ decode 0b0000001100000010#16 = .ok (.write 3) ∧ decode 0b0110000000000000#16 = .ok .nop := by decide

theorem test_decode_data_movement :
    decode 0b0001000110000000#16 = .ok (.setn 1 (-128)) ∧ decode 0b0010001000010100#16 = .ok (.loadn 2 20)
    ∧ decode 0b0011001000010100#16 = .ok (.storen 2 20) ∧ decode 0b0100000100100000#16 = .ok (.loadr 1 2)
    ∧ decode 0b0100000100100001#16 = .ok (.storer 1 2) ∧ decode 0b0110000100100000#16 = .ok (.copy 1 2) := by decide

theorem test_decode_arithmetic :
    decode 0b0101000111111111#16 = .ok (.addn 1 (-1)) ∧ decode 0b0110001100010010#16 = .ok (.add 3 1 2)
    ∧ decode 0b0111001100010010#16 = .ok (.sub 3 1 2) ∧ decode 0b1000001100010010#16 = .ok (.mul 3 1 2)
    ∧ decode 0b1001001100010010#16 = .ok (.div 3 1 2) ∧ decode 0b1010001100010010#16 = .ok (.mod 3 1 2)
    ∧ decode 0b0111000100000010#16 = .ok (.neg 1 2) := by decide

theorem test_decode_control_transfer :
    decode 0b0000111000000011#16 = .ok (.jumpr 14) ∧ decode 0b1011000000000111#16 = .ok (.jumpn 7)
    ∧ decode 0b1011111000001010#16 = .ok (.calln 14 10) ∧ decode 0b1100000100000110#16 = .ok (.jeqzn 1 6)
    ∧ decode 0b1101000100000000#16 = .ok (.jnezn 1 0) ∧ decode 0b1110001000000001#16 = .ok (.jgtzn 2 1)
    ∧ decode 0b1111000100000101#16 = .ok (.jltzn 1 5) := by decide

/-- The four overlaps, and the highest word (R82, V2). -/
theorem test_decode_overlaps :
    decode 0b0110000000010000#16 = .ok (.copy 0 1) ∧ decode 0b0110000000000001#16 = .ok (.add 0 0 1)
    ∧ decode 0b0111000000000000#16 = .ok (.neg 0 0) ∧ decode 0b1011000011111111#16 = .ok (.jumpn 255)
    ∧ decode 0xFFFF#16 = .ok (.jltzn 15 255) := by decide

/-- Illegal words (R96). -/
theorem test_decode_illegal :
    decode 0b0000000100000000#16 = .error .decodeFailure ∧ decode 0b0000000000000100#16 = .error .decodeFailure
    ∧ decode 0b0000000000010001#16 = .error .decodeFailure ∧ decode 0b0100000100100010#16 = .error .decodeFailure := by
  decide

/-- Encoding gives the words of R117 and of part 2.1. -/
theorem test_encode :
    encode (.add 1 2 3) = 0b0110000100100011#16 ∧ encode (.setn 1 (-1)) = 0b0001000111111111#16
    ∧ encode (.neg 1 2) = 0b0111000100000010#16 ∧ encode (.jumpn 7) = 0b1011000000000111#16
    ∧ encode (.storer 1 2) = 0b0100000100100001#16 ∧ encode (.read 1) = 0b0000000100000001#16 := by decide

theorem test_decodeTableWord :
    decodeTableWord 16 0x6123 = some (.add 1 2 3) ∧ decodeTableWord 16 0x0100 = none := by decide

theorem test_resolve : resolve "mov" = some .copy ∧ resolve "jltzn" = some .jltzn ∧ resolve "pushr" = none
    ∧ resolve "ADD" = none := by decide

/-! ## Single steps (part 2.3) -/

/-- A READY machine with the word `w` at address `a`, the boundary at `csb`, and the given registers and other cells. -/
def machine (m : Mode) (a csb w : Nat) (regs : List (Nat × Int)) (cells : List Cell) : State :=
  { State.reset with
    mode := m
    state := .READY
    pc := a
    codeSegmentBoundary := csb
    registers := regs.foldl (fun r p => r.setIfInBounds p.1 p.2) (Vector.replicate 16 0)
    ram := cells.foldl (fun r c => Memory.write r c.1 c.2) (Memory.write [] a (w : Int)) }

/-- What one step leaves. -/
def after (s : State) : State := s.afterCall .runNextInstruction

/-- The state line of part 2.3: `state / pc / lastPc / ir`. -/
def line (s : State) : RunState × Nat × Nat × Int := (s.state, s.pc, s.lastPc, s.ir)

theorem test_halt :
    line (after { machine .SAFE 3 4 0x0000 [] [] with state := .RUN, lastPc := 2, ir := 25362 }) = (.HALT, 3, 3, 0) := by
  decide

theorem test_nop :
    line (after (machine .SAFE 4 8 0x6000 [(1, 7)] [])) = (.RUN, 5, 4, 24576)
    ∧ (after (machine .SAFE 4 8 0x6000 [(1, 7)] [])).registers = (machine .SAFE 4 8 0x6000 [(1, 7)] []).registers := by
  decide

theorem test_write :
    line (after (machine .SAFE 0 8 0x0302 [(3, 8)] [])) = (.RUN, 1, 0, 770)
    ∧ (after (machine .SAFE 0 8 0x0302 [(3, 8)] [])).output = [8] := by decide

theorem test_read :
    line (after (machine .SAFE 0 8 0x0101 [] [])) = (.WAIT, 1, 0, 257)
    ∧ (after (machine .SAFE 0 8 0x0101 [] [])).readTarget = some 1 ∧ (after (machine .SAFE 0 8 0x0101 [] [])).reg 1 = 0 := by
  decide

theorem test_setn :
    (after (machine .SAFE 0 8 0x1180 [] [])).reg 1 = -128
    ∧ (after (machine .SAFE 0 8 0x1005 [] [])).registers = Vector.replicate 16 0
    ∧ (after (machine .SAFE 0 8 0x1005 [] [])).state = .RUN := by decide

/-- A load from data, and a load of its own code word in SAFE mode. -/
theorem test_loadn :
    (after (machine .SAFE 0 8 0x2214 [] [(20, 777)])).reg 2 = 777 ∧ (after (machine .SAFE 0 8 0x2200 [] [])).reg 2 = 8704 := by
  decide

theorem test_storen :
    Memory.read (after (machine .SAFE 0 8 0x3214 [(2, 40000)] [])).ram 20 = 40000
    ∧ Memory.read (after (machine .SAFE 0 8 0x3208 [(2, 9)] [])).ram 8 = 9 := by decide

/-- A store into the code segment faults in SAFE mode and lands in UNSAFE mode. -/
theorem test_storen_code_segment :
    (after (machine .SAFE 0 8 0x3203 [(2, 9)] [])).errors = [.codeSegmentWrite 3]
    ∧ line (after (machine .SAFE 0 8 0x3203 [(2, 9)] [])) = (.ERROR, 0, 0, 0)
    ∧ Memory.read (after (machine .SAFE 0 8 0x3203 [(2, 9)] [])).ram 3 = 0
    ∧ Memory.read (after (machine .UNSAFE 0 8 0x3203 [(2, 9)] [])).ram 3 = 9 := by decide

theorem test_loadr : (after (machine .SAFE 0 8 0x4120 [(2, 100)] [(100, -5)])).reg 1 = -5 := by decide

theorem test_loadr_outside_memory :
    (after (machine .SAFE 0 8 0x4120 [(2, 256)] [])).errors = [.invalidAddress 256]
    ∧ (after (machine .SAFE 0 8 0x4120 [(2, -1)] [])).errors = [.invalidAddress (-1)] := by decide

theorem test_storer : Memory.read (after (machine .SAFE 0 8 0x4121 [(1, 42), (2, 255)] [])).ram 255 = 42 := by decide

theorem test_storer_faults :
    (after (machine .SAFE 0 8 0x4121 [(1, 42), (2, 300)] [])).errors = [.invalidAddress 300]
    ∧ (after (machine .SAFE 0 8 0x4121 [(1, 42), (2, 7)] [])).errors = [.codeSegmentWrite 7] := by decide

theorem test_copy : (after (machine .SAFE 0 8 0x6120 [(2, 65534)] [])).reg 1 = 65534 := by decide

theorem test_addn :
    (after (machine .SAFE 0 8 0x51FF [] [])).reg 1 = -1
    ∧ (after (machine .SAFE 0 8 0x5101 [(1, 65534)] [])).errors = [.integerOutOfRange 65535]
    ∧ (after (machine .SAFE 0 8 0x51FF [(1, -32768)] [])).errors = [.integerOutOfRange (-32769)] := by decide

theorem test_add :
    (after (machine .SAFE 0 8 0x6312 [(1, 32767), (2, 32767)] [])).reg 3 = 65534
    ∧ (after (machine .SAFE 0 8 0x6312 [(1, 32767), (2, 32768)] [])).errors = [.integerOutOfRange 65535] := by decide

/-- An out-of-range result faults with register 0 as destination too (D6). -/
theorem test_add_r0 : (after (machine .SAFE 0 8 0x6012 [(1, 40000), (2, 40000)] [])).errors = [.integerOutOfRange 80000] := by
  decide

theorem test_sub :
    (after (machine .SAFE 0 8 0x7312 [(1, 5), (2, 8)] [])).reg 3 = -3
    ∧ (after (machine .SAFE 0 8 0x7312 [(1, -32768), (2, 1)] [])).errors = [.integerOutOfRange (-32769)] := by decide

theorem test_mul :
    (after (machine .SAFE 0 8 0x8312 [(1, -200), (2, 100)] [])).reg 3 = -20000
    ∧ (after (machine .SAFE 0 8 0x8312 [(1, 256), (2, 256)] [])).errors = [.integerOutOfRange 65536] := by decide

theorem test_div :
    (after (machine .SAFE 0 8 0x9312 [(1, -7), (2, 2)] [])).reg 3 = -3
    ∧ (after (machine .SAFE 0 8 0x9312 [(1, 7), (2, -2)] [])).reg 3 = -3
    ∧ (after (machine .SAFE 0 8 0x9312 [(1, -32768), (2, -1)] [])).reg 3 = 32768 := by decide

theorem test_div_by_zero :
    (after (machine .SAFE 0 8 0x9312 [(1, 7), (3, 99)] [])).errors = [.divisionByZero]
    ∧ (after (machine .SAFE 0 8 0x9312 [(1, 7), (3, 99)] [])).reg 3 = 99 := by decide

theorem test_mod :
    (after (machine .SAFE 0 8 0xA312 [(1, -7), (2, 2)] [])).reg 3 = -1
    ∧ (after (machine .SAFE 0 8 0xA312 [(1, 7), (2, -2)] [])).reg 3 = 1
    ∧ (after (machine .SAFE 0 8 0xA310 [(1, 7)] [])).errors = [.divisionByZero] := by decide

theorem test_neg :
    (after (machine .SAFE 0 8 0x7102 [(2, -32768)] [])).reg 1 = 32768
    ∧ (after (machine .SAFE 0 8 0x7102 [(2, 32769)] [])).errors = [.integerOutOfRange (-32769)] := by decide

theorem test_jumpr :
    line (after (machine .SAFE 5 12 0x0E03 [(14, 3)] [])) = (.RUN, 3, 5, 3587)
    ∧ line (after (machine .UNSAFE 5 12 0x0E03 [(14, 12)] [])) = (.RUN, 12, 5, 3587) := by decide

theorem test_jumpr_bad_target :
    (after (machine .SAFE 5 12 0x0E03 [(14, 12)] [])).errors = [.invalidJumpTarget 12]
    ∧ (after (machine .UNSAFE 5 12 0x0E03 [(14, 256)] [])).errors = [.invalidJumpTarget 256]
    ∧ (after (machine .SAFE 5 12 0x0E03 [(14, 12)] [])).pc = 5 := by decide

theorem test_jumpn :
    (after (machine .SAFE 2 9 0xB007 [] [])).pc = 7
    ∧ (after (machine .SAFE 2 5 0xB007 [] [])).errors = [.invalidJumpTarget 7] := by decide

theorem test_calln :
    (after (machine .SAFE 4 12 0xBE0A [] [])).reg 14 = 5 ∧ (after (machine .SAFE 4 12 0xBE0A [] [])).pc = 10 := by decide

/-- The link register is reverted when the jump faults. -/
theorem test_calln_reverts :
    (after (machine .SAFE 4 8 0xBE0A [(14, 77)] [])).reg 14 = 77
    ∧ (after (machine .SAFE 4 8 0xBE0A [(14, 77)] [])).errors = [.invalidJumpTarget 10] := by decide

theorem test_jeqzn :
    (after (machine .SAFE 2 8 0xC106 [] [])).pc = 6 ∧ (after (machine .SAFE 2 8 0xC106 [(1, 4)] [])).pc = 3 := by decide

/-- An untaken jump does not examine its target (D10). -/
theorem test_jeqzn_target :
    line (after (machine .SAFE 2 8 0xC1C8 [(1, 4)] [])) = (.RUN, 3, 2, 49608)
    ∧ (after (machine .SAFE 2 8 0xC1C8 [] [])).errors = [.invalidJumpTarget 200] := by decide

theorem test_jnezn :
    (after (machine .SAFE 5 8 0xD100 [(1, -3)] [])).pc = 0 ∧ (after (machine .SAFE 5 8 0xD100 [] [])).pc = 6 := by decide

theorem test_jgtzn :
    (after (machine .SAFE 3 8 0xE201 [(2, 40000)] [])).pc = 1 ∧ (after (machine .SAFE 3 8 0xE201 [(2, -1)] [])).pc = 4 := by
  decide

theorem test_jltzn :
    (after (machine .SAFE 0 8 0xF105 [(1, -1)] [])).pc = 5 ∧ (after (machine .SAFE 0 8 0xF105 [(1, 40000)] [])).pc = 1 := by
  decide

/-! ## Faults of the cycle (part 2.4) -/

theorem test_illegal_word :
    line (after { machine .SAFE 2 8 256 [] [] with lastPc := 1, ir := 4357 }) = (.ERROR, 2, 1, 4357)
    ∧ (after (machine .SAFE 2 8 256 [] [])).errors = [.decodeFailure 256] := by decide

theorem test_fetch_outside_code :
    (after (machine .SAFE 8 8 0 [] [])).errors = [.fetchOutsideCode 8]
    ∧ line (after (machine .UNSAFE 8 8 0 [] [])) = (.HALT, 8, 8, 0) := by decide

/-- Even a `halt` at address 255 faults (D4). -/
theorem test_advance_past_255 :
    (after (machine .SAFE 255 256 0 [] [])).errors = [.invalidJumpTarget 256]
    ∧ (after (machine .UNSAFE 255 256 0x6000 [] [])).errors = [.invalidJumpTarget 256] := by decide

/-- A negative cell is decoded as its residue modulo 65536 (D3): −4096 is the word 0xF000, `jltzn r0 0`, not taken. -/
theorem test_negative_cell : line (after (machine .UNSAFE 9 8 0 [] [(9, -4096)])) = (.RUN, 10, 9, -4096) := by decide

theorem test_inactive :
    after { machine .SAFE 0 8 0x1105 [] [] with state := .HALT } = { machine .SAFE 0 8 0x1105 [] [] with state := .HALT } := by
  decide

/-! ## Host calls (part 2.5, R143) -/

theorem test_loadBinary :
    ((loadBinary "0001 0001 0000 0101\n\n0000 0000 0000 0000\n" (machine .SAFE 3 0 0 [(1, 4)] [])).2).ram = [(0, 4357)]
    ∧ ((loadBinary "0001 0001 0000 0101\n\n0000 0000 0000 0000\n" (machine .SAFE 3 0 0 [(1, 4)] [])).2).codeSegmentBoundary
      = 2
    ∧ ((loadBinary "0001 0001 0000 0101\n\n0000 0000 0000 0000\n" (machine .SAFE 3 0 0 [(1, 4)] [])).2).state = .READY := by
  decide

theorem test_loadBinary_refused :
    parseImage "1111 1111 1111 1111\n" = none ∧ parseImage "0001 0001 0000 010\n" = none
    ∧ parseImage "0001 0001 0000 0102\n" = none ∧ parseImage "" = some [] := by decide

theorem test_imageText : imageText [0x6123] = "0110 0001 0010 0011\n" := by decide

theorem test_resetMachine :
    (resetMachine false { machine .SAFE 1 2 7 [(1, 4)] [(0, 5), (20, 16)] with state := .HALT }).2.ram = [(0, 5), (1, 7)]
    ∧ (resetMachine true { machine .SAFE 1 2 7 [(1, 4)] [(0, 5), (20, 16)] with state := .HALT }).2.ram = [] := by decide

/-- A machine waiting for the input of `read r1` at address 0. -/
def waiting : State := after (machine .SAFE 0 8 0x0101 [] [])

theorem test_readInput :
    (readInput "abc" waiting).1 = .validationFailure ∧ (readInput "-0x10" waiting).2.reg 1 = -16
    ∧ line (readInput "-0x10" waiting).2 = (.READY, 1, 0, 257) ∧ (readInput "5" (machine .SAFE 0 8 0 [] [])).1 = .refused := by
  decide

theorem test_readInput_out_of_range :
    (readInput "65535" waiting).1 = .faulted (.integerOutOfRange 65535) ∧ (readInput "65535" waiting).2.state = .ERROR
    ∧ (readInput "65535" waiting).2.reg 1 = 0 := by decide

theorem test_stepBackward :
    (after (machine .SAFE 4 12 0xBE0A [(14, 77)] [])).stepBackward = machine .SAFE 4 12 0xBE0A [(14, 77)] [] := by decide

theorem test_instructionFromBinary :
    instructionFromBinary 0x6123#16 = some "add r1 r2 r3" ∧ instructionFromBinary 0x1180#16 = some "setn r1 -128"
    ∧ instructionFromBinary 0x0100#16 = none := by decide

theorem test_withFetchWord :
    line (after (State.reset.withFetchWord 16 0x1105)) = (.RUN, 1, 0, 4357)
    ∧ (after (State.reset.withFetchWord 16 0x1105)).reg 1 = 5 ∧ (after (State.reset.withFetchWord 16 0)).state = .HALT := by
  decide

/-! ## Witnesses: states and operands that meet the hypotheses of each obligation, at the boundaries of its clauses -/

/-- The values of the notation at its boundaries (R8, R167). -/
theorem witness_NotationFunctionsAreAsDefined :
    VALID (-32768) ∧ VALID 65534 ∧ ¬ VALID (-32769) ∧ ¬ VALID 65535 ∧ sext8 127 = 127 ∧ sext8 128 = -128 ∧ tc8 (-128) = 128
    ∧ tc8 (-1) = 255 ∧ tc8 255 = 255 ∧ tdiv (-7) 2 = -3 ∧ tmod (-7) 2 = -1 ∧ tdiv 7 (-2) = -3 ∧ tmod 7 (-2) = 1
    ∧ u16 (-1) = 65535#16 ∧ u16 (-32768) = 32768#16 ∧ u16 65534 = 65534#16 := by decide

theorem witness_DecodeInvertsEncode :
    (Instr.setn 15 (-128)).wf = true ∧ (Instr.setn 15 (-128)).overlapped = false
    ∧ (Instr.jltzn 15 255).wf = true ∧ (Instr.jltzn 15 255).overlapped = false
    ∧ (Instr.add 0 0 1).wf = true ∧ (Instr.add 0 0 1).overlapped = false ∧ (Instr.add 15 15 0).overlapped = true := by decide

theorem witness_EncodeInvertsDecode : decode 0xFFFF#16 = .ok (.jltzn 15 255) ∧ decode 0x6000#16 = .ok .nop := by decide

theorem witness_GuardedRegisterRead :
    ¬ ((0 : Int) ≤ -1 ∧ (-1 : Int) < 16) ∧ ¬ ((0 : Int) ≤ 16 ∧ (16 : Int) < 16) ∧ (15 : Nat) < 16 ∧ (15 : Nat) ≠ 0
    ∧ decode 0x612F#16 = .ok (.add 1 2 15) ∧ Operand.reg 15 ∈ (Instr.add 1 2 15).operands := by decide

theorem witness_GuardedRegisterWrite :
    setReg 16 0 State.reset = .error (.invalidRegister 16) ∧ setReg (-1) 0 State.reset = .error (.invalidRegister (-1))
    ∧ ¬ VALID 65535 ∧ ¬ VALID (-32769) ∧ VALID 65534 ∧ VALID (-32768) ∧ (15 : Nat) < 16 := by
  refine ⟨rfl, rfl, ?_⟩
  decide

theorem witness_GuardedMemoryRead : ¬ ((0 : Int) ≤ -1 ∧ (-1 : Int) < 256) ∧ ¬ ((0 : Int) ≤ 256 ∧ (256 : Int) < 256)
    ∧ (255 : Nat) < 256 := by decide

/-- SAFE mode with the boundary at 8: cells 7 and 8 fall in the two last clauses; UNSAFE mode, cell 0. -/
theorem witness_GuardedMemoryWrite :
    Memory.wf (machine .SAFE 0 8 0 [] []).ram = true ∧ (machine .SAFE 0 8 0 [] []).mode = .SAFE
    ∧ (7 : Int) < ((machine .SAFE 0 8 0 [] []).codeSegmentBoundary : Int)
    ∧ ((machine .SAFE 0 8 0 [] []).mode = .SAFE → (machine .SAFE 0 8 0 [] []).codeSegmentBoundary ≤ 8)
    ∧ ((machine .UNSAFE 0 8 0 [] []).mode = .SAFE → (machine .UNSAFE 0 8 0 [] []).codeSegmentBoundary ≤ 0)
    ∧ ¬ VALID 65535 ∧ VALID 65534 ∧ VALID 0 := by decide

/-- The three clauses on values at their boundaries, and each jump about to jump to the boundary. -/
theorem witness_JumpTargetsAreValidated :
    (¬ ((0 : Int) ≤ 256 ∧ (256 : Int) < 256) ∧ (machine .SAFE 0 8 0 [] []).mode = .SAFE
      ∧ ((machine .SAFE 0 8 0 [] []).codeSegmentBoundary : Int) ≤ 8
      ∧ ((machine .SAFE 0 8 0 [] []).mode = .SAFE → 7 < (machine .SAFE 0 8 0 [] []).codeSegmentBoundary)
      ∧ ((machine .UNSAFE 0 8 0 [] []).mode = .SAFE → 255 < (machine .UNSAFE 0 8 0 [] []).codeSegmentBoundary))
    ∧ (∃ u, prepare (machine .SAFE 5 12 0x0E03 [(14, 12)] []) = .run (.jumpr 14) u)
    ∧ (machine .SAFE 5 12 0x0E03 [(14, 12)] []).reg 14 = 12
    ∧ (∃ u, prepare (machine .SAFE 2 7 0xB007 [] []) = .run (.jumpn 7) u)
    ∧ (∃ u, prepare (machine .SAFE 4 10 0xBE0A [] []) = .run (.calln 14 10) u)
    ∧ (∃ u, prepare (machine .SAFE 2 6 0xC106 [] []) = .run (.jeqzn 1 6) u) ∧ (machine .SAFE 2 6 0xC106 [] []).reg 1 = 0
    ∧ (∃ u, prepare (machine .SAFE 2 6 0xD106 [(1, -1)] []) = .run (.jnezn 1 6) u)
    ∧ (machine .SAFE 2 6 0xD106 [(1, -1)] []).reg 1 ≠ 0
    ∧ (∃ u, prepare (machine .SAFE 2 6 0xE106 [(1, 1)] []) = .run (.jgtzn 1 6) u)
    ∧ (machine .SAFE 2 6 0xE106 [(1, 1)] []).reg 1 > 0
    ∧ (∃ u, prepare (machine .SAFE 2 6 0xF106 [(1, -1)] []) = .run (.jltzn 1 6) u)
    ∧ (machine .SAFE 2 6 0xF106 [(1, -1)] []).reg 1 < 0 :=
  ⟨by decide, ⟨_, rfl⟩, by decide, ⟨_, rfl⟩, ⟨_, rfl⟩, ⟨_, rfl⟩, by decide, ⟨_, rfl⟩, by decide, ⟨_, rfl⟩, by decide,
    ⟨_, rfl⟩, by decide⟩

theorem witness_HaltStopsAtItsOwnAddress : ({ machine .SAFE 0 8 0 [] [] with lastPc := 255 } : State).lastPc < 256 := by
  decide

theorem witness_WriteEmitsTheRegister : (0 : Nat) < 16 ∧ (15 : Nat) < 16 := by decide

theorem witness_SetnAndCopyWriteTheirValue :
    (15 : Nat) < 16 ∧ (-128 : Int) ≤ -128 ∧ (127 : Int) ≤ 127 ∧ VALID ((machine .SAFE 0 8 0 [(2, 65534)] []).reg 2)
    ∧ VALID ((machine .SAFE 0 8 0 [(2, -32768)] []).reg 2) := by decide

/-- Both forms, at address 255 and at an address outside memory. -/
theorem witness_LoadsReadTheCell :
    (∃ n : Nat, n < 256 ∧ Instr.loadn 1 255 = .loadn 1 n ∧ (255 : Int) = n)
    ∧ (∃ y, y < 16 ∧ Instr.loadr 1 2 = .loadr 1 y ∧ (255 : Int) = (machine .SAFE 0 8 0 [(2, 255)] []).reg y)
    ∧ VALID (Memory.read (machine .SAFE 0 8 0 [] [(255, -32768)]).ram 255)
    ∧ (∃ y, y < 16 ∧ Instr.loadr 1 2 = .loadr 1 y ∧ (-1 : Int) = (machine .SAFE 0 8 0 [(2, -1)] []).reg y) :=
  ⟨⟨255, by decide⟩, ⟨2, by decide⟩, by decide, ⟨2, by decide⟩⟩

/-- Both forms: the first data cell, an address outside memory, the last code cell. -/
theorem witness_StoresWriteTheCell :
    Memory.wf (machine .SAFE 0 8 0 [(1, 9), (2, 8)] []).ram = true ∧ VALID ((machine .SAFE 0 8 0 [(1, 9), (2, 8)] []).reg 1)
    ∧ (∃ n : Nat, n < 256 ∧ Instr.storen 1 8 = .storen 1 n ∧ (8 : Int) = n)
    ∧ (∃ y, y < 16 ∧ Instr.storer 1 2 = .storer 1 y ∧ (8 : Int) = (machine .SAFE 0 8 0 [(1, 9), (2, 8)] []).reg y)
    ∧ (∃ y, y < 16 ∧ Instr.storer 1 2 = .storer 1 y ∧ (256 : Int) = (machine .SAFE 0 8 0 [(2, 256)] []).reg y)
    ∧ (7 : Int) < ((machine .SAFE 0 8 0 [] []).codeSegmentBoundary : Int) :=
  ⟨by decide, by decide, ⟨8, by decide⟩, ⟨2, by decide⟩, ⟨2, by decide⟩, by decide⟩

/-- Each form, with a result in range and one out of range. -/
theorem witness_ArithmeticStoresTheExactResult :
    VALID ((machine .SAFE 0 8 0 [(1, 65533)] []).reg 1 + 1) ∧ ¬ VALID ((machine .SAFE 0 8 0 [(1, 65534)] []).reg 1 + 1)
    ∧ VALID ((machine .SAFE 0 8 0 [(1, 32767)] []).reg 1 + (machine .SAFE 0 8 0 [(1, 32767)] []).reg 1)
    ∧ ¬ VALID ((machine .SAFE 0 8 0 [(1, -32768)] []).reg 1 - (machine .SAFE 0 8 0 [(2, 1)] []).reg 2)
    ∧ ¬ VALID ((machine .SAFE 0 8 0 [(1, 256)] []).reg 1 * (machine .SAFE 0 8 0 [(1, 256)] []).reg 1)
    ∧ VALID (-((machine .SAFE 0 8 0 [(1, 32768)] []).reg 1)) ∧ ¬ VALID (-((machine .SAFE 0 8 0 [(1, 32769)] []).reg 1)) := by
  decide

theorem witness_DivTruncatesTowardZero :
    (machine .SAFE 0 8 0 [(1, 7)] []).reg 2 = 0
    ∧ (machine .SAFE 0 8 0 [(1, -32768), (2, -1)] []).reg 2 ≠ 0 ∧ VALID (tdiv (-32768) (-1))
    ∧ (machine .SAFE 0 8 0 [(1, 32769), (2, -1)] []).reg 2 ≠ 0 ∧ ¬ VALID (tdiv 32769 (-1)) := by decide

theorem witness_ModStoresTheTruncatedRemainder :
    (machine .SAFE 0 8 0 [(1, 7)] []).reg 2 = 0 ∧ (machine .SAFE 0 8 0 [(1, 65534), (2, -1)] []).reg 2 ≠ 0
    ∧ VALID ((machine .SAFE 0 8 0 [(1, 65534), (2, -1)] []).reg 1) := by decide

theorem witness_QuotientAndRemainderFitTogether : (-1 : Int) ≠ 0 ∧ (1 : Int) ≠ 0 := by decide

/-- A `div` and a `mod` about to run with a zero divisor. -/
theorem witness_ZeroDivisorFaults :
    (∃ u, prepare (machine .SAFE 0 8 0x9312 [(1, 7)] []) = .run (.div 3 1 2) u)
    ∧ (∃ u, prepare (machine .SAFE 0 8 0xA310 [(1, 7)] []) = .run (.mod 3 1 0) u)
    ∧ (machine .SAFE 0 8 0x9312 [(1, 7)] []).reg 2 = 0 ∧ (machine .SAFE 0 8 0xA310 [(1, 7)] []).reg 0 = 0 :=
  ⟨⟨_, rfl⟩, ⟨_, rfl⟩, by decide⟩

/-- An `addn` about to run whose result is the last in range, and one whose result is the first out of range. -/
theorem witness_ArithmeticIsExactOrFaults :
    (∃ u, prepare (machine .SAFE 0 8 0x5101 [(1, 65533)] []) = .run (.addn 1 1) u)
    ∧ (machine .SAFE 0 8 0x5101 [(1, 65533)] []).reg 1 + 1 = 65534
    ∧ (∃ u, prepare (machine .SAFE 0 8 0x5101 [(1, 65534)] []) = .run (.addn 1 1) u)
    ∧ (machine .SAFE 0 8 0x5101 [(1, 65534)] []).reg 1 + 1 = 65535
    ∧ (∃ u, prepare (machine .SAFE 0 8 0xA312 [(1, 7), (2, -2)] []) = .run (.mod 3 1 2) u) :=
  ⟨⟨_, rfl⟩, by decide, ⟨_, rfl⟩, by decide, ⟨_, rfl⟩⟩

theorem witness_JumpsGoToTheirTarget :
    (machine .SAFE 0 8 0 [(14, 7)] []).targetOk ((machine .SAFE 0 8 0 [(14, 7)] []).reg 14)
    ∧ ¬ (machine .SAFE 0 8 0 [(14, 8)] []).targetOk ((machine .SAFE 0 8 0 [(14, 8)] []).reg 14)
    ∧ (machine .UNSAFE 0 8 0 [] []).targetOk 255 ∧ ¬ (machine .UNSAFE 0 8 0 [(14, 256)] []).targetOk 256
    ∧ ¬ (machine .UNSAFE 0 8 0 [(14, -1)] []).targetOk (-1) := by
  simp only [State.targetOk]
  decide

theorem witness_CallnLinksAndJumps :
    (machine .SAFE 255 8 0 [] []).pc < 256 ∧ (machine .SAFE 255 8 0 [] []).targetOk (7 : Nat)
    ∧ ¬ (machine .SAFE 255 8 0 [] []).targetOk (8 : Nat) := by
  simp only [State.targetOk]
  decide

/-- Each condition, taken and not taken, at the values next to zero. -/
theorem witness_ConditionalJumpsTestTheRegister :
    (machine .SAFE 0 8 0 [] []).reg 1 = 0 ∧ (machine .SAFE 0 8 0 [(1, 1)] []).reg 1 > 0
    ∧ (machine .SAFE 0 8 0 [(1, -1)] []).reg 1 < 0 ∧ (machine .SAFE 0 8 0 [(1, -1)] []).reg 1 ≠ 0
    ∧ (machine .SAFE 0 8 0 [] []).targetOk (7 : Nat) ∧ ¬ (machine .SAFE 0 8 0 [] []).targetOk (8 : Nat) := by
  simp only [State.targetOk]
  decide

theorem witness_OverlappingNamesHaveOneEffect : (machine .SAFE 255 8 0 [] []).pc < 256 := by decide

/-- A register instruction that completes, and one that faults. -/
theorem witness_RegisterInstructionsFrame :
    (∃ u t, prepare (machine .SAFE 0 8 0x6312 [(1, 5), (2, 3)] []) = .run (.add 3 1 2) u ∧ destination (.add 3 1 2) = some 3
      ∧ exec (.add 3 1 2) u = .next t)
    ∧ (∃ u t, prepare (machine .SAFE 4 8 0xBE0A [] []) = .run (.calln 14 10) u ∧ destination (.calln 14 10) = some 14
      ∧ exec (.calln 14 10) u = .next t) :=
  ⟨⟨_, _, rfl, rfl, rfl⟩, ⟨_, _, rfl, rfl, rfl⟩⟩

/-- A store of either form; the address of the second is the register's value. -/
theorem witness_StoreInstructionsFrame :
    (∃ u t, prepare (machine .SAFE 0 8 0x3208 [(2, 9)] []) = .run (.storen 2 8) u ∧ exec (.storen 2 8) u = .next t
      ∧ storedAddress (.storen 2 8) u = some 8)
    ∧ (∃ u t, prepare (machine .SAFE 0 8 0x4121 [(1, 42), (2, 255)] []) = .run (.storer 1 2) u
      ∧ exec (.storer 1 2) u = .next t ∧ storedAddress (.storer 1 2) u = some 255) :=
  ⟨⟨_, _, rfl, rfl, rfl⟩, ⟨_, _, rfl, rfl, rfl⟩⟩

theorem witness_OtherInstructionsFrame :
    (∃ u t, prepare (machine .SAFE 0 8 0x0302 [(3, 8)] []) = .run (.write 3) u ∧ destination (.write 3) = none
      ∧ (¬ ∃ x y, Instr.write 3 = .storen x y ∨ Instr.write 3 = .storer x y) ∧ exec (.write 3) u = .next t)
    ∧ (∃ u t, prepare (machine .SAFE 0 8 0x0101 [] []) = .run (.read 1) u ∧ destination (.read 1) = none
      ∧ (¬ ∃ x y, Instr.read 1 = .storen x y ∨ Instr.read 1 = .storer x y) ∧ exec (.read 1) u = .next t) :=
  ⟨⟨_, _, rfl, rfl, by simp, rfl⟩, ⟨_, _, rfl, rfl, by simp, rfl⟩⟩

/-- At the last address from which an instruction can run, in either mode. -/
theorem witness_StepRunsTheDecodedInstruction :
    (machine .SAFE 254 255 0x6312 [] []).state.isActive = true
    ∧ ((machine .SAFE 254 255 0x6312 [] []).mode = .SAFE →
        (machine .SAFE 254 255 0x6312 [] []).pc < (machine .SAFE 254 255 0x6312 [] []).codeSegmentBoundary)
    ∧ (machine .SAFE 254 255 0x6312 [] []).pc < 255
    ∧ decode (u16 (Memory.read (machine .SAFE 254 255 0x6312 [] []).ram 254)) = .ok (.add 3 1 2) := by decide

/-- The three clauses: `pc` at the boundary; an illegal word; address 255. -/
theorem witness_CycleFaultsInOrder :
    ((machine .SAFE 8 8 0 [] []).state.isActive = true ∧ (machine .SAFE 8 8 0 [] []).mode = .SAFE
      ∧ (machine .SAFE 8 8 0 [] []).codeSegmentBoundary ≤ (machine .SAFE 8 8 0 [] []).pc)
    ∧ ((machine .SAFE 7 8 256 [] []).pc < (machine .SAFE 7 8 256 [] []).codeSegmentBoundary
      ∧ decode (u16 (Memory.read (machine .SAFE 7 8 256 [] []).ram 7)) = .error .decodeFailure)
    ∧ ((machine .SAFE 255 256 0 [] []).pc = 255
      ∧ (machine .SAFE 255 256 0 [] []).pc < (machine .SAFE 255 256 0 [] []).codeSegmentBoundary
      ∧ decode (u16 (Memory.read (machine .SAFE 255 256 0 [] []).ram 255)) = .ok .halt) := by decide

theorem witness_InactiveStepChangesNothing :
    waiting.state = .WAIT ∧ State.reset.state = .EMPTY
    ∧ (after (machine .SAFE 0 8 0 [] [])).state = .HALT ∧ (after (machine .SAFE 8 8 0 [] [])).state = .ERROR := by decide

theorem witness_FaultLeavesNothingButError :
    (machine .SAFE 4 8 0xBE0A [(14, 77)] []).state ≠ .ERROR
    ∧ (∃ t, step (machine .SAFE 4 8 0xBE0A [(14, 77)] []) = .next t ∧ t.state = .ERROR) :=
  ⟨by decide, _, rfl, rfl⟩

theorem witness_StepFollowsTheRunStateDiagram :
    (∃ u t, prepare (machine .SAFE 0 8 0 [] []) = .run .halt u ∧ exec .halt u = .next t)
    ∧ (∃ u t, prepare (machine .SAFE 0 8 0x0101 [] []) = .run (.read 1) u ∧ exec (.read 1) u = .next t) :=
  ⟨⟨_, _, rfl, rfl⟩, ⟨_, _, rfl, rfl⟩⟩

/-- The state of program P1 before its `halt` meets the invariant. -/
theorem machine_inv : (machine .SAFE 3 4 0 [(1, 5), (2, 3), (3, 8)] [(0, 4357), (1, 4611), (2, 25362)]).Inv where
  registerZero := by decide
  registersValid := by decide
  ramCanonical := by decide
  ramValid := by decide
  pcInRange := by decide
  lastPcInRange := by decide
  irValid := by decide
  boundaryInRange := by decide
  codeUnsigned := by decide
  targetInRange := by
    intro r h
    cases h
  waitingHasTarget := by decide
  emptyHasNothing := by decide
  logLegal := by
    intro g h
    cases h

theorem witness_HaltedStateIsAsStated :
    (machine .SAFE 3 4 0 [(1, 5), (2, 3), (3, 8)] [(0, 4357), (1, 4611), (2, 25362)]).Inv
    ∧ (machine .SAFE 3 4 0 [(1, 5), (2, 3), (3, 8)] [(0, 4357), (1, 4611), (2, 25362)]).state.isActive = true
    ∧ (∃ t, step (machine .SAFE 3 4 0 [(1, 5), (2, 3), (3, 8)] [(0, 4357), (1, 4611), (2, 25362)]) = .next t
        ∧ t.state = .HALT) :=
  ⟨machine_inv, by decide, _, rfl, rfl⟩

theorem witness_StepEmitsAtMostOneEvent :
    (machine .SAFE 0 8 0x0302 [(3, 8)] []).state.isActive = true
    ∧ (∃ t, step (machine .SAFE 0 8 0x0302 [(3, 8)] []) = .next t ∧ t.output = [8])
    ∧ (∃ t, step (machine .SAFE 8 8 0x0302 [(3, 8)] []) = .next t ∧ t.state = .ERROR) :=
  ⟨by decide, ⟨_, rfl, rfl⟩, ⟨_, rfl, rfl⟩⟩

/-- A store to the first data cell does not fault in SAFE mode. -/
theorem witness_SafeModeOnlyAddsFaults :
    ∃ t, step { machine .UNSAFE 0 8 0x3208 [(2, 9)] [] with mode := .SAFE } = .next t ∧ t.state ≠ .ERROR :=
  ⟨_, rfl, by decide⟩

theorem witness_SafeModeKeepsTheCodeSegment :
    (machine .SAFE 0 8 0x3208 [(2, 9)] []).mode = .SAFE ∧ (∃ t, step (machine .SAFE 0 8 0x3208 [(2, 9)] []) = .next t)
    ∧ 7 < (machine .SAFE 0 8 0x3208 [(2, 9)] []).codeSegmentBoundary
    ∧ (∃ u, prepare (machine .SAFE 0 8 0x3208 [(2, 9)] []) = .run (.storen 2 8) u) :=
  ⟨rfl, ⟨_, rfl⟩, by decide, ⟨_, rfl⟩⟩

theorem witness_BoundaryChangesOnlyOnLoadAndReset :
    parseImage "0000 0000 0000 0000" = some [0] ∧ parseImage "0" = none := by decide

theorem witness_StepKeepsTheInvariant :
    (machine .SAFE 3 4 0 [(1, 5), (2, 3), (3, 8)] [(0, 4357), (1, 4611), (2, 25362)]).Inv
    ∧ (∃ t, step (machine .SAFE 3 4 0 [(1, 5), (2, 3), (3, 8)] [(0, 4357), (1, 4611), (2, 25362)]) = .next t) :=
  ⟨machine_inv, _, rfl⟩

theorem witness_HostCallsKeepTheInvariant :
    HostCall.stepBackward ≠ .runNextInstruction
    ∧ (machine .SAFE 3 4 0 [(1, 5), (2, 3), (3, 8)] [(0, 4357), (1, 4611), (2, 25362)]).Inv :=
  ⟨by decide, machine_inv⟩

theorem witness_ReachableStatesMeetTheInvariant :
    Reachable (({ State.reset with mode := .SAFE } : State).afterCall (.loadBinary "0001 0001 0000 0101\n")) :=
  .call _ _ (.created .SAFE)

theorem witness_RegisterZeroIsHardWired : Reachable { State.reset with mode := .UNSAFE } ∧ VALID 65534 ∧ VALID (-32768) :=
  ⟨.created .UNSAFE, by decide⟩

theorem witness_ProgramCounterStaysInRange :
    Reachable { State.reset with mode := .SAFE }
    ∧ (∃ u, prepare (machine .SAFE 254 255 0x6312 [] []) = .run (.add 3 1 2) u) :=
  ⟨.created .SAFE, _, rfl⟩

/-- A step that completes and a step that faults. -/
theorem witness_StepBackwardUndoesAStep :
    Memory.wf (machine .SAFE 0 8 0x3208 [(2, 9)] []).ram = true ∧ (machine .SAFE 0 8 0x3208 [(2, 9)] []).state.isActive = true
    ∧ (∃ t, step (machine .SAFE 0 8 0x3208 [(2, 9)] []) = .next t)
    ∧ (∃ t, step (machine .SAFE 0 8 0x3203 [(2, 9)] []) = .next t ∧ t.state = .ERROR) :=
  ⟨by decide, by decide, ⟨_, rfl⟩, ⟨_, rfl, rfl⟩⟩

theorem witness_StepBackwardUndoesAnInput : (readInput "-32768" waiting).1 = .accepted ∧ State.reset.undoLog = [] := by decide

theorem witness_LoadInstallsTheImage :
    parseImage "1111 1111 1111 1111" = none ∧ parseImage "1111 1111 1111 1110\n\n" = some [65534] := by decide

theorem witness_ImageTextIsParsedBack :
    ([65534, 0] : List Nat).length ≤ 256 ∧ (∀ w ∈ ([65534, 0] : List Nat), w < 65535)
    ∧ parseImage (imageText [65534, 0]) = some [65534, 0] := by decide

/-- Lines that make an image, a blank one and one of four nibbles among them, and lines that refuse the text: a line of 15
binary digits, and one of 16 characters that holds a `2`. -/
theorem witness_ImageTextIsParsedBack_lines :
    (∀ l ∈ [[], "  ".toList, "0110 0001 0010 0011".toList], '\n' ∉ l) ∧ IsBlankLine "  ".toList ∧ IsBlankLine []
    ∧ parseImage (textOfLines [[], "  ".toList, "0110 0001 0010 0011".toList]) = some [0x6123]
    ∧ (¬ IsBlankLine "0001 0001 0000 010".toList ∧ ¬ ∃ n, IsWordLine "0001 0001 0000 010".toList n)
    ∧ (¬ IsBlankLine "0001000100000102".toList ∧ ¬ ∃ n, IsWordLine "0001000100000102".toList n) := by
  refine ⟨by decide, by simp [IsBlankLine], by simp [IsBlankLine], by decide, ⟨by simp [IsBlankLine], ?_⟩,
    by simp [IsBlankLine], ?_⟩
  · exact fun ⟨_, h, _⟩ => absurd h (by decide)
  · rintro ⟨n, -, h⟩
    exact absurd ((numeral_iff (fun c d => binaryDigit_iff) (by decide)).mpr h) (by simp [numeral, binaryDigit])

theorem witness_ResetsClearWhatTheySay :
    State.reset.state = .EMPTY ∧ waiting.state ≠ .EMPTY ∧ 7 < waiting.codeSegmentBoundary ∧ waiting.codeSegmentBoundary ≤ 8 := by
  decide

theorem witness_ReadInputCompletesARead :
    State.reset.state ≠ .WAIT ∧ waiting.state = .WAIT ∧ waiting.readTarget = some 1 ∧ parseLiteral "abc".toList = none
    ∧ parseLiteral "65534".toList = some 65534 ∧ parseLiteral "0xFFFF".toList = some 65535
    ∧ parseLiteral "-32768".toList = some (-32768) ∧ VALID 65534 ∧ VALID (-32768) ∧ ¬ VALID 65535 := by decide

/-- A literal of each form with its value by the grammar, and a text that is none: `0x` with no digit after it. -/
theorem witness_ReadInputCompletesARead_literals :
    IsLiteral "-10".toList (-10) ∧ IsLiteral "0XfF".toList 255 ∧ ¬ ∃ v, IsLiteral "0x".toList v := by
  have d (b : Nat) (c : Char) (k : Nat) (h : k < b ∧ ("0123456789abcdef".toList[k]? = some c
      ∨ "0123456789ABCDEF".toList[k]? = some c)) : IsDigit b c k := h
  refine ⟨⟨10, .inr ⟨['1', '0'], rfl, .inl ?_, rfl⟩⟩,
    ⟨255, .inl ⟨.inr ⟨'X', ['f', 'F'], .inr rfl, rfl, ?_⟩, rfl⟩⟩, ?_⟩
  · exact .snoc (cs := ['1']) (n := 1) (.digit (d 10 '1' 1 (by decide))) (d 10 '0' 0 (by decide))
  · exact .snoc (cs := ['f']) (n := 15) (.digit (d 16 'f' 15 (by decide))) (d 16 'F' 15 (by decide))
  · have no10 (n : Nat) : ¬ IsNumeral 10 ['0', 'x'] n := fun h =>
      absurd ((numeral_iff (fun c d => decimalDigit_iff) (by decide)).mpr h) (by simp [numeral, decimalDigit])
    have no16 (n : Nat) : ¬ IsNumeral 16 [] n := fun h => h.ne_nil rfl
    rintro ⟨v, n, ⟨h | ⟨x, ds, -, h, hn⟩, -⟩ | ⟨ds, h, -⟩⟩
    · exact no10 n h
    · obtain rfl : [] = ds := (List.cons.inj (List.cons.inj h).2).2
      exact no16 n hn
    · exact absurd (List.cons.inj h).1 (by decide)

theorem witness_NextInstructionSeesTheInput :
    (∃ u t, prepare (machine .SAFE 0 8 0x0101 [] []) = .run (.read 1) u ∧ step (machine .SAFE 0 8 0x0101 [] []) = .next t)
    ∧ parseLiteral "65534".toList = some 65534 ∧ VALID 65534 :=
  ⟨⟨_, _, rfl, rfl⟩, by decide⟩

theorem witness_PlacedWordRunsNext :
    (65535 : Nat) < 65536 ∧ decode (BitVec.ofNat 16 65535) = .ok (.jltzn 15 255) ∧ decode (BitVec.ofNat 16 0) = .ok .halt := by
  decide

end Sys2Proof.Tests
end

section
/-! The functions of the notation, each by the property R8 defines it with. -/

namespace Sys2Proof

theorem sext8_eq (f : Nat) : sext8 f = if f ≥ 128 then (f : Int) - 256 else (f : Int) := rfl

theorem zext8_eq (f : Nat) : zext8 f = f := rfl

/-- From -128 up, the two branches of `tc8` take no negative number to a field (R8). -/
theorem tc8_eq {v : Int} (h : -128 ≤ v) : (tc8 v : Int) = if v ≥ 0 then v else v + 256 := by
  unfold tc8
  split <;> omega

theorem u16_toNat (v : Int) : ((u16 v).toNat : Int) = v % 65536 := by
  have residue_nonneg : 0 ≤ v % 65536 := Int.emod_nonneg v (by decide)
  calc ((u16 v).toNat : Int) = ((v % 65536).toNat : Int) := congrArg Nat.cast (BitVec.toNat_ofInt v)
    _ = v % 65536 := Int.toNat_of_nonneg residue_nonneg

end Sys2Proof

namespace Sys2Proof.Machine

theorem valid_iff (v : Int) : VALID v ↔ -32768 ≤ v ∧ v ≤ 65534 := by
  have bounds : Config.INT_MIN = -32768 ∧ Config.INT_LIM = 65535 := by decide
  rw [VALID, bounds.1, bounds.2]
  omega

/-- The size of the quotient: truncation toward zero is the floor of the sizes (R8). -/
theorem tdiv_natAbs (a b : Int) : (tdiv a b).natAbs = a.natAbs / b.natAbs := Int.natAbs_tdiv a b

/-- A quotient that is not 0 has the sign of `a * b` (R8). -/
theorem tdiv_mul_nonneg (a b : Int) : 0 ≤ tdiv a b * (a * b) := by
  rw [tdiv, ← Int.sign_nonneg_iff, Int.sign_mul, Int.sign_mul, Int.sign_tdiv]
  split
  case isTrue => rw [Int.zero_mul]
  case isFalse => exact mul_self_nonneg (a.sign * b.sign)

/-- The model's remainder is the library's, the remainder of the truncated quotient. -/
theorem tmod_eq_int_tmod (a b : Int) : tmod a b = Int.tmod a b := (Int.tmod_def a b).symm

/-- A remainder that is not 0 has the sign of the dividend (R8, R167). -/
theorem tmod_mul_nonneg (a b : Int) : 0 ≤ tmod a b * a := by
  rw [tmod_eq_int_tmod, ← Int.sign_nonneg_iff, Int.sign_mul, Int.sign_tmod]
  split
  case isTrue => rw [Int.zero_mul]
  case isFalse => exact mul_self_nonneg a.sign

/-- Settles O1, each clause by the lemma on its function. -/
theorem notationFunctionsAreAsDefined : Obligations.NotationFunctionsAreAsDefined :=
  ⟨valid_iff, fun f _ => sext8_eq f, fun f _ => zext8_eq f, fun _ h _ => tc8_eq h,
    fun a b _ => ⟨tdiv_natAbs a b, tdiv_mul_nonneg a b⟩, fun a b _ => ⟨rfl, tmod_mul_nonneg a b⟩, u16_toNat⟩

end Sys2Proof.Machine
end

section
/-! The guarded accessors of memory (R54). -/

namespace Sys2Proof.Machine

/-- Settles O11: its two clauses are the two equations of `memRead`, which ask for neither the mode nor the segment. -/
theorem guardedMemoryRead : Obligations.GuardedMemoryRead := by
  intro s a
  constructor
  · exact memRead_bad s
  · rintro n rfl inRange
    exact memRead_nat s inRange

end Sys2Proof.Machine
end

section
/-! The opcode matcher is the library's search for the first element (R81). -/

namespace Sys2Proof.Machine

theorem matchWord_eq_find? (lt : List Descriptor) (w : Word) :
    matchWord lt w = lt.find? (fun d => w &&& d.mask = d.pattern) := by
  induction lt with
  | nil => rfl
  | cons d lt ih =>
    by_cases hit : w &&& d.mask = d.pattern
    · simp [matchWord, hit]
    · simp [matchWord, hit, ih]

theorem matchWord_eq_some_iff {lt : List Descriptor} {w : Word} {d : Descriptor} :
    matchWord lt w = some d ↔ ∃ before after, lt = before ++ d :: after ∧ w &&& d.mask = d.pattern
      ∧ ∀ e ∈ before, w &&& e.mask ≠ e.pattern := by
  rw [matchWord_eq_find?, List.find?_eq_some_iff_append]
  constructor
  · rintro ⟨hit, before, after, split_at, missed⟩
    exact ⟨before, after, split_at, by simpa using hit, by simpa using missed⟩
  · rintro ⟨before, after, split_at, hit, missed⟩
    exact ⟨by simpa using hit, before, after, split_at, by simpa using missed⟩

theorem matchWord_eq_none_iff {lt : List Descriptor} {w : Word} :
    matchWord lt w = none ↔ ∀ d ∈ lt, w &&& d.mask ≠ d.pattern := by
  rw [matchWord_eq_find?, List.find?_eq_none]
  simp only [decide_eq_true_eq, ne_eq]

/-- Settles O3: the hit and the miss of the matcher, each by its `↔`. -/
theorem matcherTakesTheFirstMatch : Obligations.MatcherTakesTheFirstMatch :=
  fun _ _ => ⟨fun _ => matchWord_eq_some_iff, matchWord_eq_none_iff⟩

end Sys2Proof.Machine
end

section
/-! The fetch and decode steps when none of them faults, each by the equation of the accessor it calls (R121 to R124), and the step
they lead to. -/

namespace Sys2Proof.Machine

theorem fetchTest_inside {s : State} (inside : s.mode = .SAFE → s.pc < s.codeSegmentBoundary) : fetchTest s = .ok () := by
  have notOutside : ¬ s.outsideCode s.pc = true := by
    rw [outsideCode_iff]
    rintro ⟨past, safe⟩
    have := inside safe
    omega
  exact if_neg notOutside

theorem fetchCell_inside {s : State} (inside : s.mode = .SAFE → s.pc < s.codeSegmentBoundary) (inRange : s.pc < 256) :
    fetchCell s = .ok (s.putIr (Memory.read s.ram s.pc)) := by
  simp only [fetchCell, fetchTest_inside inside, memRead_nat s inRange]
  rfl

theorem advancePc_below {s : State} (below : s.pc < 255) : advancePc s = .ok ((s.putLastPc s.pc).putPc (s.pc + 1)) :=
  setPc_nat (s.putLastPc s.pc) (Nat.succ_lt_succ below)

/-- When the fetch is allowed, the cell decodes and the address has a successor, the cycle dispatches (R122). -/
theorem prepare_of_decode {s : State} {i : Instr} (active : s.state.isActive = true)
    (inside : s.mode = .SAFE → s.pc < s.codeSegmentBoundary) (below : s.pc < 255)
    (decodes : decode (u16 (Memory.read s.ram s.pc)) = .ok i) : prepare s = .run i s.fetched := by
  have fetched : fetchCell s.enterStep = .ok (s.enterStep.putIr (Memory.read s.ram s.pc)) :=
    fetchCell_inside inside (Nat.lt_succ_of_lt below)
  have advanced : advancePc (s.enterStep.putIr (Memory.read s.ram s.pc)) = .ok s.fetched := advancePc_below below
  have prepared : fetchDecode s.enterStep = .ok (i, s.fetched) := by
    simp only [fetchDecode, fetched, bind, Except.bind, putIr_ir, decodes, advanced]
  simp only [prepare, active, if_true, prepared]

/-- Settles O34: the state it writes out is `State.fetched`, from which the dispatcher runs the instruction. -/
theorem stepRunsTheDecodedInstruction : Obligations.StepRunsTheDecodedInstruction :=
  fun _ _ active inside below decodes => step_run (prepare_of_decode active inside below decodes)

end Sys2Proof.Machine
end

section
/-! What an Operation that completes does to the event streams and the run state (R131): by the cases of its effect. -/

namespace Sys2Proof.Machine

theorem Effect.errors_eq {i : Instr} {s t : State} (effect : Effect i s t) : t.errors = s.errors := by
  cases effect <;> rfl

theorem Effect.state_ne_error {i : Instr} {s t : State} (effect : Effect i s t) (running : s.state ≠ .ERROR) :
    t.state ≠ .ERROR := by
  cases effect with
  | halts => simp
  | waits => simp
  | _ => exact running

/-- `write` extends the output by its register's value (R142); no other instruction touches it. -/
theorem Effect.output_cases {i : Instr} {s t : State} (effect : Effect i s t) :
    (∃ x, i = .write x ∧ t.output = s.output ++ [s.reg x]) ∨ ((∀ x, i ≠ .write x) ∧ t.output = s.output) := by
  cases effect with
  | emits x isWrite => exact .inl ⟨x, isWrite, rfl⟩
  | halts isHalt => exact .inr ⟨by simp [isHalt], rfl⟩
  | waits _ isRead => exact .inr ⟨by simp [isRead], rfl⟩
  | nothing _ _ notWrite => exact .inr ⟨notWrite, rfl⟩
  | writesRegister x _ writes =>
    refine .inr ⟨?_, rfl⟩
    rintro y rfl
    cases writes
  | stores _ _ isStore =>
    obtain ⟨x, n, rfl | rfl⟩ := isStore
    · exact .inr ⟨by simp, rfl⟩
    · exact .inr ⟨by simp, rfl⟩
  | jumps _ _ _ _ _ notWrite => exact .inr ⟨notWrite, rfl⟩
  | calls _ _ isCall => exact .inr ⟨by simp [isCall], rfl⟩

/-- Settles O41: a fault appends its one error; a completing Operation leaves the errors and extends the output only for
`write`. -/
theorem stepEmitsAtMostOneEvent : Obligations.StepEmitsAtMostOneEvent := by
  intro s t active stepped
  rcases step_cases stepped with ⟨inactive, -⟩ | ⟨-, k, rfl⟩ | ⟨-, i, dispatched, effect⟩
  · simp [active] at inactive
  · exact .inr ⟨rfl, rfl, k, rfl⟩
  · refine .inl ⟨effect.state_ne_error (by simp [State.fetched]), effect.errors_eq, ?_⟩
    rcases effect.output_cases with ⟨x, rfl, emitted⟩ | ⟨notWrite, kept⟩
    · exact .inl ⟨x, _, dispatched, emitted⟩
    · refine .inr ⟨?_, kept⟩
      rintro ⟨x, u, asWrite⟩
      rw [dispatched] at asWrite
      cases asWrite
      exact notWrite x rfl

end Sys2Proof.Machine
end

section
/-! Stepping backward (R219): a logged update leaves `stepBackward` where it was, because reverse-applying the edit it logged
restores the state before it but for the log, and popping the group sets the log anyway. -/

namespace Sys2Proof.Machine

theorem revertGroup_withUndoLog (g : List Edit) (s : State) (log : List (List Edit)) :
    revertGroup g { s with undoLog := log } = { revertGroup g s with undoLog := log } := by
  induction g generalizing s with
  | nil => rfl
  | cons e g ih =>
    have tail := ih (e.revert s)
    cases e <;> exact tail

/-- `u` is `s` after an update that logged `e`, in a group that is already open. -/
theorem stepBackward_of_logged {s u : State} {e : Edit} (isOpen : s.undoLog ≠ [])
    (logged : u.undoLog = pushEdit e s.undoLog) (reverts : e.revert u = { s with undoLog := u.undoLog }) :
    u.stepBackward = s.stepBackward := by
  obtain ⟨g, gs, newest⟩ := List.exists_cons_of_ne_nil isOpen
  rw [newest] at logged
  calc u.stepBackward = { revertGroup g (e.revert u) with undoLog := gs } := by
        simp only [State.stepBackward, State.popMark, logged, pushEdit, revertGroup]
    _ = { revertGroup g s with undoLog := gs } := by rw [reverts, revertGroup_withUndoLog]
    _ = s.stepBackward := by simp only [State.stepBackward, State.popMark, newest]

section
variable {s : State} (isOpen : s.undoLog ≠ [])
include isOpen

theorem stepBackward_putPc (n : Nat) : (s.putPc n).stepBackward = s.stepBackward :=
  stepBackward_of_logged isOpen rfl rfl

theorem stepBackward_putState (r : RunState) : (s.putState r).stepBackward = s.stepBackward :=
  stepBackward_of_logged isOpen rfl rfl

theorem stepBackward_putRegister (i : Nat) (v : Int) : (s.putRegister i v).stepBackward = s.stepBackward :=
  stepBackward_of_logged isOpen rfl (by simp only [Edit.revert, State.putRegister, registers_restore])

theorem stepBackward_putRam (canonical : Memory.wf s.ram = true) (a : Nat) (v : Int) :
    (s.putRam a v).stepBackward = s.stepBackward :=
  stepBackward_of_logged isOpen rfl (by simp only [Edit.revert, State.putRam, Memory.write_restore canonical])

end

@[simp] theorem pushEdit_ne_nil (e : Edit) (log : List (List Edit)) : pushEdit e log ≠ [] := by
  cases log <;> simp [pushEdit]

/-- What stepping backward does not recall (R41, R221) is as `t` has it; everything else is as `s` has it. -/
def State.withUnrecalledOf (s t : State) : State :=
  { s with readTarget := t.readTarget, output := t.output, errors := t.errors }

theorem stepBackward_afterFault (s : State) (k : Fault) :
    (s.afterFault k).stepBackward = s.withUnrecalledOf (s.afterFault k) := rfl

theorem fetched_undoLog_ne_nil (s : State) : s.fetched.undoLog ≠ [] := List.cons_ne_nil _ _

/-- The cycle's own four edits lead from the state an Operation starts in back to the state before the step. -/
theorem stepBackward_fetched (s : State) : s.fetched.stepBackward = s := rfl

theorem Effect.stepBackward_eq {i : Instr} {s t : State} (canonical : Memory.wf s.ram = true)
    (effect : Effect i s.fetched t) : t.stepBackward = s.withUnrecalledOf t := by
  have isOpen := fetched_undoLog_ne_nil s
  cases effect with
  | halts => exact (stepBackward_putPc (by simp) _).trans (stepBackward_putState isOpen _)
  | waits x => exact stepBackward_putState (s := s.fetched.putReadTarget x) isOpen _
  | emits => rfl
  | nothing => exact stepBackward_fetched s
  | writesRegister x v => exact stepBackward_putRegister isOpen x v
  | stores a v => exact stepBackward_putRam isOpen canonical a v
  | jumps n => exact stepBackward_putPc isOpen n
  | calls x n => exact (stepBackward_putPc (by simp) n).trans (stepBackward_putRegister isOpen x _)

theorem stepBackward_of_step {s t : State} (canonical : Memory.wf s.ram = true) (active : s.state.isActive = true)
    (stepped : step s = .next t) : t.stepBackward = s.withUnrecalledOf t := by
  rcases step_cases stepped with ⟨inactive, -⟩ | ⟨-, k, rfl⟩ | ⟨-, i, -, effect⟩
  · simp [active] at inactive
  · exact stepBackward_afterFault s k
  · exact effect.stepBackward_eq canonical

/-- Settles O53: what is not recalled is none of the fields it names. -/
theorem stepBackwardUndoesAStep : Obligations.StepBackwardUndoesAStep := by
  intro s t canonical active stepped
  rw [stepBackward_of_step canonical active stepped]
  exact ⟨rfl, rfl, rfl, rfl, rfl, rfl, rfl⟩

end Sys2Proof.Machine
end

section
/-! The texts `readInput` takes as numbers, by the grammar of R102: first without a sign, then with one. -/

namespace Sys2Proof.Machine

theorem IsNumeral.isDigit_of_mem {base : Nat} {cs : List Char} {n : Nat} (h : IsNumeral base cs n) :
    ∀ c ∈ cs, ∃ d, IsDigit base c d := by
  induction h with
  | digit isDigit => exact List.forall_mem_singleton.mpr ⟨_, isDigit⟩
  | snoc _ isDigit ih => exact List.forall_mem_append.mpr ⟨ih, List.forall_mem_singleton.mpr ⟨_, isDigit⟩⟩

/-- What keeps the forms of R102 apart: a text with an `x`, an `X` or a minus sign is no decimal numeral. -/
theorem not_isNumeral_ten {c : Char} {cs : List Char} {n : Nat} (noDigit : decimalDigit c = none) (isIn : c ∈ cs) :
    ¬ IsNumeral 10 cs n := by
  intro isNumeral
  obtain ⟨d, isDigit⟩ := isNumeral.isDigit_of_mem c isIn
  rw [decimalDigit_iff.mpr isDigit] at noDigit
  cases noDigit

section
variable {x : Char} (isX : x = 'x' ∨ x = 'X')
include isX

theorem parseMagnitude_hex (ds : List Char) :
    parseMagnitude ('0' :: x :: ds) = if ds = [] then none else numeral hexDigit 16 ds 0 := by
  rcases isX with rfl | rfl <;> rfl

theorem isMagnitude_hex {ds : List Char} {n : Nat} : IsMagnitude ('0' :: x :: ds) n ↔ IsNumeral 16 ds n := by
  have noDigit : decimalDigit x = none := by rcases isX with rfl | rfl <;> rfl
  constructor
  · rintro (decimal | ⟨y, es, -, same, hex⟩)
    · exact absurd decimal (not_isNumeral_ten noDigit (by simp))
    · cases same
      exact hex
  · exact fun hex => .inr ⟨x, ds, isX, rfl, hex⟩

theorem parseMagnitude_hex_iff {ds : List Char} {n : Nat} :
    parseMagnitude ('0' :: x :: ds) = some n ↔ IsMagnitude ('0' :: x :: ds) n := by
  rw [parseMagnitude_hex isX, isMagnitude_hex isX]
  split
  case isTrue empty => simpa using fun hex : IsNumeral 16 ds n => hex.ne_nil empty
  case isFalse nonempty => exact numeral_iff (fun _ _ => hexDigit_iff) nonempty

end

/-- A text that begins as the hexadecimal form does (R102). -/
def HasHexPrefix (cs : List Char) : Prop := ∃ x ds, (x = 'x' ∨ x = 'X') ∧ cs = '0' :: x :: ds

theorem parseMagnitude_decimal {cs : List Char} (nonempty : cs ≠ []) (noPrefix : ¬ HasHexPrefix cs) :
    parseMagnitude cs = numeral decimalDigit 10 cs 0 := by
  unfold parseMagnitude
  split
  · exact absurd rfl nonempty
  · exact absurd ⟨_, _, .inl rfl, rfl⟩ noPrefix
  · exact absurd ⟨_, _, .inr rfl, rfl⟩ noPrefix
  · rfl

theorem isMagnitude_decimal {cs : List Char} {n : Nat} (noPrefix : ¬ HasHexPrefix cs) :
    IsMagnitude cs n ↔ IsNumeral 10 cs n :=
  or_iff_left fun ⟨x, ds, isX, same, _⟩ => noPrefix ⟨x, ds, isX, same⟩

theorem parseMagnitude_iff {cs : List Char} {n : Nat} : parseMagnitude cs = some n ↔ IsMagnitude cs n := by
  by_cases hexPrefix : HasHexPrefix cs
  · obtain ⟨x, ds, isX, rfl⟩ := hexPrefix
    exact parseMagnitude_hex_iff isX
  · rw [isMagnitude_decimal hexPrefix]
    obtain rfl | nonempty := eq_or_ne cs []
    · simpa [parseMagnitude] using fun decimal : IsNumeral 10 [] n => decimal.ne_nil rfl
    · rw [parseMagnitude_decimal nonempty hexPrefix]
      exact numeral_iff (fun _ _ => decimalDigit_iff) nonempty

theorem not_isMagnitude_minus {ds : List Char} {n : Nat} : ¬ IsMagnitude ('-' :: ds) n := by
  rintro (decimal | ⟨x, es, -, same, -⟩)
  · exact not_isNumeral_ten rfl (List.mem_cons_self ..) decimal
  · cases same

theorem isLiteral_minus {ds : List Char} {v : Int} : IsLiteral ('-' :: ds) v ↔ ∃ n : Nat, IsMagnitude ds n ∧ v = -n := by
  refine exists_congr fun n => ⟨?_, fun ⟨magnitude, value⟩ => .inr ⟨ds, rfl, magnitude, value⟩⟩
  rintro (⟨unsigned, -⟩ | ⟨es, same, signed⟩)
  · exact absurd unsigned not_isMagnitude_minus
  · cases same
    exact signed

theorem isLiteral_noMinus {cs : List Char} {v : Int} (noMinus : ∀ ds, cs ≠ '-' :: ds) :
    IsLiteral cs v ↔ ∃ n : Nat, IsMagnitude cs n ∧ v = n :=
  exists_congr fun _ => or_iff_left fun ⟨ds, same, _⟩ => noMinus ds same

theorem parseLiteral_noMinus {cs : List Char} (noMinus : ∀ ds, cs ≠ '-' :: ds) :
    parseLiteral cs = (parseMagnitude cs).map (fun n : Nat => (n : Int)) := by
  unfold parseLiteral
  split
  · exact absurd rfl (noMinus _)
  · rfl

theorem map_parseMagnitude_iff {cs : List Char} {f : Nat → Int} {v : Int} :
    (parseMagnitude cs).map f = some v ↔ ∃ n, IsMagnitude cs n ∧ v = f n := by
  simp only [Option.map_eq_some_iff, parseMagnitude_iff, eq_comm (a := v)]

theorem parseLiteral_iff {cs : List Char} {v : Int} : parseLiteral cs = some v ↔ IsLiteral cs v := by
  by_cases minus : ∃ ds, cs = '-' :: ds
  · obtain ⟨ds, rfl⟩ := minus
    rw [isLiteral_minus, parseLiteral, map_parseMagnitude_iff]
  · have noMinus : ∀ ds, cs ≠ '-' :: ds := not_exists.mp minus
    rw [isLiteral_noMinus noMinus, parseLiteral_noMinus noMinus, map_parseMagnitude_iff]

theorem parseLiteral_eq_none {cs : List Char} (noLiteral : ¬ ∃ v, IsLiteral cs v) : parseLiteral cs = none :=
  Option.eq_none_iff_forall_ne_some.mpr fun v parsed => noLiteral ⟨v, parseLiteral_iff.mp parsed⟩

end Sys2Proof.Machine
end

section
/-! What `readInput` answers and leaves (R143): one equation for each case. -/

namespace Sys2Proof.Machine

/-- `s` after an input of `v` that is accepted for register `r`. -/
def State.withInput (r : Nat) (v : Int) (s : State) : State :=
  (if r = 0 then s.openMark else s.openMark.putRegister r v).putState .READY

/-- The register file, the log and the run state are all an accepted input writes. -/
theorem State.withInput_frame (r : Nat) (v : Int) (s : State) :
    ∃ registers undoLog, s.withInput r v = { s with registers, undoLog, state := .READY } := by
  unfold State.withInput
  split <;> exact ⟨_, _, rfl⟩

theorem reg_withInput {r : Nat} (inRange : r < 16) (v : Int) (s : State) (j : Nat) :
    (s.withInput r v).reg j = if j = r then (if r = 0 then 0 else v) else s.reg j := by
  unfold State.withInput
  rw [reg_congr (putState_registers ..)]
  by_cases zero : r = 0
  · subst zero
    by_cases same : j = 0 <;> simp [same, State.reg]
  · rw [if_neg zero, reg_putRegister]
    by_cases same : j = r
    · simp [same, zero, inRange]
    · rw [if_neg (fun both : r = j ∧ r < 16 => same both.1.symm), if_neg same, reg_congr (openMark_registers s),
        ite_eq_right_iff]
      rintro rfl
      exact (reg_zero s).symm

section
variable {r : Nat} {v : Int} (s : State) (inRange : r < 16)
include inRange

theorem acceptInput_valid (valid : VALID v) : s.acceptInput r v = (.accepted, s.withInput r v) := by
  unfold State.acceptInput
  rw [setReg_valid s.openMark inRange valid]
  rfl

theorem acceptInput_invalid (invalid : ¬ VALID v) :
    s.acceptInput r v = (.faulted (.integerOutOfRange v), s.afterFault (.integerOutOfRange v)) := by
  unfold State.acceptInput
  rw [setReg_invalid s.openMark inRange invalid]
  rfl

end

section
variable {s : State} {text : String}

theorem readInput_notWaiting (notWaiting : s.state ≠ .WAIT) : readInput text s = (.refused, s) := if_neg notWaiting

variable (waiting : s.state = .WAIT)
include waiting

theorem readInput_noLiteral (noLiteral : parseLiteral text.toList = none) : readInput text s = (.validationFailure, s) := by
  simp only [readInput, if_pos waiting, noLiteral]

variable {r : Nat} {v : Int} (target : s.readTarget = some r) (literal : parseLiteral text.toList = some v)
include target literal

theorem readInput_literal : readInput text s = s.acceptInput r v := by
  simp only [readInput, if_pos waiting, literal, target]

end

/-- Settles O58: the literals by the grammar, then `readInput` by its equation in each case. -/
theorem readInputCompletesARead : Obligations.ReadInputCompletesARead := by
  refine ⟨fun _ _ => parseLiteral_iff, fun _ => parseLiteral_eq_none, fun s text =>
    ⟨readInput_notWaiting, readInput_noLiteral, fun r v waiting target inRange literal => ?_⟩⟩
  rw [readInput_literal waiting target literal]
  refine ⟨fun valid => ?_, acceptInput_invalid s inRange⟩
  have written : (s.withInput r v).reg r = if r = 0 then 0 else v := by rw [reg_withInput inRange, if_pos rfl]
  have others : ∀ j, j < 16 → j ≠ r → (s.withInput r v).reg j = s.reg j := fun j _ other => by
    rw [reg_withInput inRange, if_neg other]
  refine ⟨_, acceptInput_valid s inRange valid, rfl, written, others, ?_⟩
  obtain ⟨registers, undoLog, frame⟩ := s.withInput_frame r v
  rw [frame]
  exact ⟨fun _ => rfl, rfl, rfl, rfl, rfl, rfl, rfl, rfl⟩

end Sys2Proof.Machine
end

section
/-! The register operands of a decoded instruction (R84, R87): the extractor reads a register from a field of four bits, so no index
leaves the register file, whatever the table. -/

namespace Sys2Proof

theorem fieldAt_register_lt (w : Word) (k : Nat) : fieldAt w Config.REG_FIELD_BITS k < 16 := by
  have fourBits : Config.WORD_BITS - 1 - k - (Config.WORD_BITS - k - Config.REG_FIELD_BITS) + 1 ≤ 4 := by
    simp only [Config.WORD_BITS, Config.REG_FIELD_BITS]
    omega
  calc fieldAt w Config.REG_FIELD_BITS k < 2 ^ _ := Nat.mod_lt _ (Nat.two_pow_pos _)
    _ ≤ 2 ^ 4 := Nat.pow_le_pow_right Nat.two_pos fourBits

theorem extract_register_lt {w : Word} {sig : List FieldKind} {k r : Nat} (extracted : .reg r ∈ extract w sig k) : r < 16 := by
  induction sig generalizing k with
  | nil => cases extracted
  | cons c sig ih =>
    cases c with
    | r =>
      rcases List.mem_cons.mp extracted with first | later
      · rw [Operand.reg.inj first]
        exact fieldAt_register_lt w k
      · exact ih later
    | z => exact ih extracted
    | s => exact ih (List.mem_of_ne_of_mem Operand.noConfusion extracted)
    | u => exact ih (List.mem_of_ne_of_mem Operand.noConfusion extracted)
    | n => exact ih (List.mem_of_ne_of_mem Operand.noConfusion extracted)

/-- Binding keeps the operands (R126). -/
theorem operands_of_ofOperands {op : OpName} {ops : List Operand} {i : Instr} (bound : Instr.ofOperands op ops = some i) :
    i.operands = ops := by
  unfold Instr.ofOperands at bound
  split at bound <;> cases bound <;> rfl

theorem decodeWith_register_lt {lt : List Descriptor} {w : Word} {i : Instr} (decodes : decodeWith lt w = .ok i) {r : Nat}
    (operand : .reg r ∈ i.operands) : r < 16 := by
  unfold decodeWith decodeHit at decodes
  split at decodes
  · cases decodes
  · split at decodes
    · cases decodes
    · next bound =>
      cases decodes
      rw [operands_of_ofOperands bound] at operand
      exact extract_register_lt operand

end Sys2Proof
end

section
/-! The arithmetic instructions (R161 to R168), one equation for each: the operands read, what is left is the guarded write of the
exact result. -/

namespace Sys2Proof.Machine

section
variable {x y z : Nat} (s : State)

theorem exec_addn (xInRange : x < 16) (n : Int) : exec (.addn x n) s = finish s (destReg x (s.reg x + n) s) :=
  congrArg (fun source => finish s (source >>= fun a => destReg x (a + n) s)) (sourceReg_nat s xInRange)

variable (yInRange : y < 16)
include yInRange

theorem exec_neg : exec (.neg x y) s = finish s (destReg x (-s.reg y) s) :=
  congrArg (fun source => finish s (source >>= fun a => destReg x (-a) s)) (sourceReg_nat s yInRange)

variable (zInRange : z < 16)
include zInRange

theorem threeRegister_eq (f : Int → Int → Except Fault Int) :
    threeRegister f x y z s = (f (s.reg y) (s.reg z) >>= fun v => destReg x v s) := by
  rw [threeRegister, sourceReg_nat s yInRange, sourceReg_nat s zInRange]
  rfl

theorem exec_add : exec (.add x y z) s = finish s (destReg x (s.reg y + s.reg z) s) :=
  congrArg (finish s) (threeRegister_eq s yInRange zInRange _)

theorem exec_sub : exec (.sub x y z) s = finish s (destReg x (s.reg y - s.reg z) s) :=
  congrArg (finish s) (threeRegister_eq s yInRange zInRange _)

theorem exec_mul : exec (.mul x y z) s = finish s (destReg x (s.reg y * s.reg z) s) :=
  congrArg (finish s) (threeRegister_eq s yInRange zInRange _)

variable (nonzero : s.reg z ≠ 0)
include nonzero

theorem threeRegister_divisorTested (f : Int → Int → Int) :
    threeRegister (divisorTested f) x y z s = destReg x (f (s.reg y) (s.reg z)) s := by
  rw [threeRegister_eq s yInRange zInRange, divisorTested, if_neg nonzero]
  rfl

theorem exec_div : exec (.div x y z) s = finish s (destReg x (tdiv (s.reg y) (s.reg z)) s) :=
  congrArg (finish s) (threeRegister_divisorTested s yInRange zInRange nonzero tdiv)

theorem exec_mod : exec (.mod x y z) s = finish s (destReg x (tmod (s.reg y) (s.reg z)) s) :=
  congrArg (finish s) (threeRegister_divisorTested s yInRange zInRange nonzero tmod)

end

/-- `i` is an arithmetic instruction with destination `x` whose exact result is `v`, in the words of the arithmetic law (R160). -/
def HasExactResult (s : State) (i : Instr) (x : Nat) (v : Int) : Prop :=
  (∃ n, i = .addn x n ∧ v = s.reg x + n)
    ∨ (∃ y z, i = .add x y z ∧ v = s.reg y + s.reg z) ∨ (∃ y z, i = .sub x y z ∧ v = s.reg y - s.reg z)
    ∨ (∃ y z, i = .mul x y z ∧ v = s.reg y * s.reg z)
    ∨ (∃ y z, i = .div x y z ∧ s.reg z ≠ 0 ∧ v = tdiv (s.reg y) (s.reg z))
    ∨ (∃ y z, i = .mod x y z ∧ s.reg z ≠ 0 ∧ v = tmod (s.reg y) (s.reg z))
    ∨ (∃ y, i = .neg x y ∧ v = -(s.reg y))

/-- The arithmetic law at the Operation: with its register operands in range, an arithmetic instruction is the guarded write
of its exact result (R160). -/
theorem exec_of_hasExactResult {s : State} {i : Instr} {x : Nat} {v : Int} (computes : HasExactResult s i x v)
    (inRange : ∀ {r}, .reg r ∈ i.operands → r < 16) : exec i s = finish s (destReg x v s) := by
  rcases computes with ⟨n, rfl, rfl⟩ | ⟨y, z, rfl, rfl⟩ | ⟨y, z, rfl, rfl⟩ | ⟨y, z, rfl, rfl⟩ | ⟨y, z, rfl, nonzero, rfl⟩
    | ⟨y, z, rfl, nonzero, rfl⟩ | ⟨y, rfl, rfl⟩
  · exact exec_addn s (inRange (by simp [Instr.operands])) n
  · exact exec_add s (inRange (by simp [Instr.operands])) (inRange (by simp [Instr.operands]))
  · exact exec_sub s (inRange (by simp [Instr.operands])) (inRange (by simp [Instr.operands]))
  · exact exec_mul s (inRange (by simp [Instr.operands])) (inRange (by simp [Instr.operands]))
  · exact exec_div s (inRange (by simp [Instr.operands])) (inRange (by simp [Instr.operands])) nonzero
  · exact exec_mod s (inRange (by simp [Instr.operands])) (inRange (by simp [Instr.operands])) nonzero
  · exact exec_neg s (inRange (by simp [Instr.operands]))

section
variable {x : Nat} {v : Int} (s : State) (inRange : x < 16)
include inRange

theorem finish_destReg_invalid (invalid : ¬ VALID v) :
    finish s (destReg x v s) = .next (s.takeFault (.integerOutOfRange v)) := by
  rw [destReg_invalid s inRange invalid, finish_error]

/-- A valid result is written, and register 0 takes none (R23, R25). -/
theorem finish_destReg_valid (valid : VALID v) :
    ∃ t, finish s (destReg x v s) = .next t ∧ t.state = s.state ∧ t.reg x = if x = 0 then 0 else v := by
  rw [destReg_valid s inRange valid]
  by_cases zero : x = 0
  · subst zero
    exact ⟨s, rfl, rfl, reg_zero s⟩
  · rw [if_neg zero]
    refine ⟨s.putRegister x v, rfl, rfl, ?_⟩
    rw [reg_putRegister, if_pos (And.intro rfl inRange)]

end

/-- Settles O26: the decoded operands are in range, so the step is the guarded write of the exact result in the state the
Operation starts from, and `VALID` decides between the write and the fault. -/
theorem arithmeticIsExactOrFaults : Obligations.ArithmeticIsExactOrFaults := by
  intro s u i x v dispatched inRange computes
  obtain ⟨-, -, -, decodes, rfl⟩ := prepare_run dispatched
  have atStart : HasExactResult s.fetched i x v := computes
  have stepped : step s = finish s.fetched (destReg x v s.fetched) :=
    (step_run dispatched).trans (exec_of_hasExactResult atStart (decodeWith_register_lt decodes))
  rw [stepped]
  constructor
  · intro low high
    obtain ⟨t, completes, running, result⟩ := finish_destReg_valid s.fetched inRange ((valid_iff v).mpr ⟨low, high⟩)
    exact ⟨t, completes, congrArg RunState.isActive running, result⟩
  · intro outside
    have faults := finish_destReg_invalid s.fetched inRange (mt (valid_iff v).mp outside)
    rw [takeFault_fetched] at faults
    exact ⟨_, faults, rfl, rfl, fun _ _ => rfl, fun _ => rfl, rfl⟩

end Sys2Proof.Machine
end

section
/-! The jumps (R175 to R184): an equation for each, from the instruction to the jump primitive when it is taken, and what becomes of a
jump whose target the primitive rejects. -/

namespace Sys2Proof.Machine

theorem not_targetOk_of_past {s : State} {t : Int} (safe : s.mode = .SAFE) (past : (s.codeSegmentBoundary : Int) ≤ t) :
    ¬ s.targetOk t := fun ⟨_, _, inside⟩ => (inside safe).not_ge past

theorem exec_jumpn (n : Nat) (s : State) : exec (.jumpn n) s = finish s (jump n s) := rfl

section
variable {x : Nat} (s : State) (inRange : x < 16)
include inRange

theorem exec_jumpr : exec (.jumpr x) s = finish s (jump (s.reg x) s) :=
  congrArg (fun source => finish s (source >>= fun t => jump t s)) (sourceReg_nat s inRange)

/-- The link is the advanced `pc`, and register 0 takes none (R180). -/
theorem exec_calln (n : Nat) (valid : VALID (s.pc : Int)) :
    exec (.calln x n) s = finish s (jump n (if x = 0 then s else s.putRegister x s.pc)) := by
  simp only [exec, execCalln, destReg_valid s inRange valid, bind, Except.bind, immediateTarget]

theorem jumpIf_taken {c : Condition} (n : Nat) (holds : c.holds (s.reg x) = true) : jumpIf c x n s = jump n s := by
  rw [jumpIf, sourceReg_nat s inRange]
  exact if_pos holds

end

/-- `i` is a jump to `t` that is taken from `s`, in the words of the jump law (R175): for a conditional one, its register meets the
condition. -/
def TakesJump (s : State) (i : Instr) (x n : Nat) (t : Int) : Prop :=
  (i = .jumpr x ∧ t = s.reg x) ∨ (i = .jumpn n ∧ t = n) ∨ (i = .calln x n ∧ t = n)
    ∨ (i = .jeqzn x n ∧ t = n ∧ s.reg x = 0) ∨ (i = .jnezn x n ∧ t = n ∧ s.reg x ≠ 0)
    ∨ (i = .jgtzn x n ∧ t = n ∧ s.reg x > 0) ∨ (i = .jltzn x n ∧ t = n ∧ s.reg x < 0)

/-- A taken jump is the jump primitive from a state that differs at most by the link, which is no part of what a target is tested
against (R175, R180). -/
theorem exec_of_takesJump {s : State} {i : Instr} {x n : Nat} {t : Int} (taken : TakesJump s i x n t) (inRange : x < 16)
    (valid : VALID (s.pc : Int)) :
    ∃ u : State, exec i s = finish s (jump t u) ∧ u.mode = s.mode ∧ u.codeSegmentBoundary = s.codeSegmentBoundary := by
  have conditional (c : Condition) (holds : c.holds (s.reg x) = true) : finish s (jumpIf c x n s) = finish s (jump n s) :=
    congrArg (finish s) (jumpIf_taken s inRange n holds)
  rcases taken with ⟨rfl, rfl⟩ | ⟨rfl, rfl⟩ | ⟨rfl, rfl⟩ | ⟨rfl, rfl, zero⟩ | ⟨rfl, rfl, nonzero⟩ | ⟨rfl, rfl, positive⟩
    | ⟨rfl, rfl, negative⟩
  · exact ⟨s, exec_jumpr s inRange, rfl, rfl⟩
  · exact ⟨s, exec_jumpn n s, rfl, rfl⟩
  · refine ⟨_, exec_calln s inRange n valid, ?_⟩
    split <;> exact ⟨rfl, rfl⟩
  · exact ⟨s, conditional .eqz (decide_eq_true zero), rfl, rfl⟩
  · exact ⟨s, conditional .nez (decide_eq_true nonzero), rfl, rfl⟩
  · exact ⟨s, conditional .gtz (decide_eq_true positive), rfl, rfl⟩
  · exact ⟨s, conditional .ltz (decide_eq_true negative), rfl, rfl⟩

/-- The fault is taken from the state before the link write, so nothing of the instruction remains (R180, R200). -/
theorem exec_of_jump_rejected {s : State} {i : Instr} {x n : Nat} {t : Int} (taken : TakesJump s i x n t) (inRange : x < 16)
    (valid : VALID (s.pc : Int)) (rejected : ¬ s.targetOk t) : exec i s = .next (s.takeFault (.invalidJumpTarget t)) := by
  obtain ⟨u, jumps, sameMode, sameBoundary⟩ := exec_of_takesJump taken inRange valid
  have alsoRejected : ¬ u.targetOk t := by rwa [State.targetOk, sameMode, sameBoundary]
  rw [jumps, jump_bad alsoRejected, finish_error]

/-- Settles O13: the primitive by its two equations; the step by its fault, which leaves `pc` at the instruction's own address, and
SAFE mode dispatches only inside the code segment. -/
theorem jumpTargetsAreValidated : Obligations.JumpTargetsAreValidated := by
  intro s t
  refine ⟨fun outside => jump_bad fun ⟨low, high, _⟩ => outside ⟨low, high⟩,
    fun safe past => jump_bad (not_targetOk_of_past safe past), ?_, ?_⟩
  · rintro n rfl inRange inside
    exact jump_target ⟨by omega, by omega, fun safe => Int.ofNat_lt.mpr (inside safe)⟩
  · intro u i x n dispatched inRange taken safe past
    obtain ⟨-, dispatchedInside, below, -, rfl⟩ := prepare_run dispatched
    have pcInside := dispatchedInside safe
    have atStart : TakesJump s.fetched i x n t := taken
    have linkValid : VALID (s.fetched.pc : Int) := (valid_iff _).mpr (by simp only [State.fetched]; omega)
    have faults := exec_of_jump_rejected atStart inRange linkValid (not_targetOk_of_past safe past)
    rw [takeFault_fetched] at faults
    have pcNotTarget : (s.pc : Int) ≠ t := by omega
    exact ⟨_, (step_run dispatched).trans faults, rfl, pcNotTarget⟩

end Sys2Proof.Machine
end

section
/-! The two setters (R25, R55): the middle one of their three tests, that of the value, and then the statements about them, by the
equation of each case. -/

namespace Sys2Proof.Machine

theorem memWrite_invalid {a v : Int} (s : State) (inRange : 0 ≤ a ∧ a < 256) (invalid : ¬ VALID v) :
    memWrite a v s = .error (.integerOutOfRange v) := by
  have notOutside : ¬ ¬ (0 ≤ a ∧ a < (Config.RAM_SIZE : Int)) := not_not.mpr inRange
  rw [memWrite, if_neg notOutside, if_pos invalid]

/-- Settles O10: a write that passes the three tests is `putRegister`, which reads back by `reg_putRegister`. -/
theorem guardedRegisterWrite : Obligations.GuardedRegisterWrite := by
  intro s i v
  refine ⟨setReg_bad v s, ?_, setReg_valid (n := 0) s (by decide), ?_⟩
  · intro low high invalid
    obtain ⟨n, rfl⟩ := Int.eq_ofNat_of_zero_le low
    exact setReg_invalid s (Int.ofNat_lt.mp high) invalid
  · rintro n rfl inRange nonzero valid
    have written : setReg n v s = .ok (s.putRegister n v) := by rw [setReg_valid s inRange valid, if_neg nonzero]
    have reads : (s.putRegister n v).reg n = v := by
      rw [reg_putRegister, if_neg nonzero, if_pos ⟨rfl, inRange⟩]
    have others : ∀ j, j < 16 → j ≠ n → (s.putRegister n v).reg j = s.reg j := by
      intro j _ other
      rw [reg_putRegister, if_neg (fun same : n = j ∧ n < 16 => other same.1.symm), ite_eq_right_iff]
      rintro rfl
      exact (reg_zero s).symm
    have logged : (s.putRegister n v).undoLog = pushEdit (.register n (s.reg n)) s.undoLog := by
      rw [putRegister_undoLog, reg_of_ne nonzero]
    exact ⟨_, written, reads, others, logged, rfl⟩

/-- Settles O12: each fault by its equation; a write that passes the three tests is `putRam`, and memory in canonical form reads back
what was written. -/
theorem guardedMemoryWrite : Obligations.GuardedMemoryWrite := by
  intro s a v canonical
  refine ⟨memWrite_bad v s, fun low high => memWrite_invalid s ⟨low, high⟩,
    fun low high => memWrite_protected s ⟨low, high⟩, ?_⟩
  rintro n rfl inRange valid unprotected
  exact ⟨s.putRam n v, memWrite_free s inRange valid unprotected, Memory.read_write_same canonical n v,
    fun _ => Memory.read_write_other s.ram n v, Memory.write_wf canonical n v, rfl, rfl⟩

end Sys2Proof.Machine
end

section
/-! The divisor test of `div` and `mod` when it fails (R165, R166, R197). -/

namespace Sys2Proof.Machine

theorem threeRegister_divisorTested_zero {x y z : Nat} (s : State) (yInRange : y < 16) (zInRange : z < 16)
    (zero : s.reg z = 0) (f : Int → Int → Int) : threeRegister (divisorTested f) x y z s = .error .divisionByZero := by
  rw [threeRegister_eq s yInRange zInRange, divisorTested, if_pos zero]
  rfl

/-- Settles O25: the Operation ends in the fault of the divisor test, whichever of the two it is, and the fault leaves the state
before the step but for ERROR and its event. -/
theorem zeroDivisorFaults : Obligations.ZeroDivisorFaults := by
  intro s u i x y z dispatched zInRange yInRange divides zero
  obtain ⟨-, -, -, -, rfl⟩ := prepare_run dispatched
  have tested := threeRegister_divisorTested_zero (x := x) s.fetched yInRange zInRange zero
  have faults : exec i s.fetched = .next (s.fetched.takeFault .divisionByZero) := by
    rcases divides with rfl | rfl
    · exact congrArg (finish s.fetched) (tested tdiv)
    · exact congrArg (finish s.fetched) (tested tmod)
  rw [takeFault_fetched] at faults
  exact ⟨_, (step_run dispatched).trans faults, rfl, rfl, fun _ _ => rfl, fun _ => rfl, rfl⟩

end Sys2Proof.Machine
end

section
/-! The overlapping names (R90): what an Operation becomes when register 0 stands for an operand, on every state and for every index,
those included at which the other source faults. -/

namespace Sys2Proof.Machine

theorem sourceReg_zero (s : State) : sourceReg 0 s = .ok 0 := sourceReg_nat s (by decide)

section
variable (f : Int → Int → Except Fault Int) (x y : Nat) (s : State)

theorem threeRegister_left_zero :
    threeRegister f x 0 y s = (do let b ← sourceReg y s; let v ← f 0 b; destReg x v s) := by
  rw [threeRegister, sourceReg_zero]
  rfl

theorem threeRegister_right_zero :
    threeRegister f x y 0 s = (do let a ← sourceReg y s; let v ← f a 0; destReg x v s) := by
  simp only [threeRegister, sourceReg_zero]
  rfl

end

theorem exec_add_right_zero (x y : Nat) (s : State) : exec (.add x y 0) s = exec (.copy x y) s := by
  simp only [exec, execAdd, execCopy, threeRegister_right_zero, Int.add_zero]
  rfl

theorem exec_sub_left_zero (x y : Nat) (s : State) : exec (.sub x 0 y) s = exec (.neg x y) s := by
  simp only [exec, execSub, execNeg, threeRegister_left_zero, Int.zero_sub]
  rfl

/-- Copying register 0 to itself is the dropped write (R23, R25). -/
theorem exec_copy_zero_zero (s : State) : exec (.copy 0 0) s = .next s := rfl

/-- The link of a call to register 0 is dropped, so the call is the jump (R180). -/
theorem exec_calln_zero {s : State} (n : Nat) (inRange : s.pc < 256) : exec (.calln 0 n) s = exec (.jumpn n) s := by
  have linkValid : VALID (s.pc : Int) := (valid_iff _).mpr (by omega)
  rw [exec_calln s (by decide) n linkValid, if_pos rfl, exec_jumpn]

/-- Settles O30: register 0 reads 0 and takes no value, so each general form with it is the special one. -/
theorem overlappingNamesHaveOneEffect : Obligations.OverlappingNamesHaveOneEffect := by
  refine ⟨fun s => ?_, fun s x y => (exec_add_right_zero x y s).symm, fun s x y => (exec_sub_left_zero x y s).symm,
    fun _ n inRange => (exec_calln_zero n inRange).symm⟩
  rw [exec_add_right_zero, exec_copy_zero_zero]
  rfl

end Sys2Proof.Machine
end

section
/-! The faults of the instruction cycle (R121, R123, R124): each where it arises in `fetchDecode`, once what comes before it has passed,
and the step it makes. -/

namespace Sys2Proof.Machine

section
variable {s : State}

theorem fetchDecode_outside (safe : s.mode = .SAFE) (past : s.codeSegmentBoundary ≤ s.pc) :
    fetchDecode s = .error (.fetchOutsideCode s.pc) := by
  have outside : s.outsideCode s.pc = true := outsideCode_iff.mpr ⟨Int.ofNat_le.mpr past, safe⟩
  rw [fetchDecode, fetchCell, fetchTest, if_pos outside]
  rfl

/-- The address after 255 is the first that is out of range (R124). -/
theorem advancePc_last (last : s.pc = 255) : advancePc s = .error (.invalidJumpTarget 256) := by
  rw [advancePc, last]
  rfl

section
variable (inside : s.mode = .SAFE → s.pc < s.codeSegmentBoundary)
include inside

theorem fetchDecode_undecodable {e : DecodeError} (inRange : s.pc < 256)
    (fails : decode (u16 (Memory.read s.ram s.pc)) = .error e) :
    fetchDecode s = .error (.decodeFailure (Memory.read s.ram s.pc)) := by
  simp only [fetchDecode, fetchCell_inside inside inRange, bind, Except.bind, putIr_ir, fails]

theorem fetchDecode_last {i : Instr} (last : s.pc = 255) (decodes : decode (u16 (Memory.read s.ram s.pc)) = .ok i) :
    fetchDecode s = .error (.invalidJumpTarget 256) := by
  have fetched := fetchCell_inside inside (by omega)
  have advanced := advancePc_last (s := s.putIr (Memory.read s.ram s.pc)) last
  simp only [fetchDecode, fetched, bind, Except.bind, putIr_ir, decodes, advanced]

end

/-- A fault of the cycle is the step's: nothing is dispatched (R122, R200). -/
theorem step_of_fetchDecode_error {k : Fault} (active : s.state.isActive = true) (faults : fetchDecode s.enterStep = .error k) :
    step s = .next (s.afterFault k) := by
  have prepared : prepare s = .done (s.enterStep.takeFault k) := by simp only [prepare, active, if_true, faults]
  exact step_done prepared

end

/-- Settles O35: each clause is the fault of one test of the cycle; entering the step changes nothing that a test reads. -/
theorem cycleFaultsInOrder : Obligations.CycleFaultsInOrder := by
  intro s active inRange
  exact ⟨fun safe past => step_of_fetchDecode_error active (fetchDecode_outside (s := s.enterStep) safe past),
    fun inside fails => step_of_fetchDecode_error active (fetchDecode_undecodable (s := s.enterStep) inside inRange fails),
    fun _ inside last decodes => step_of_fetchDecode_error active (fetchDecode_last (s := s.enterStep) inside last decodes)⟩

end Sys2Proof.Machine
end

section
/-! What a `read` leaves (R141), and the input that follows it (R143, R243). -/

namespace Sys2Proof.Machine

/-- A step in an inactive state is refused and changes nothing (R120). -/
theorem step_inactive {s : State} (inactive : s.state.isActive = false) : step s = .next s := by
  have refused : prepare s = .done s := by simp only [prepare, inactive, Bool.false_eq_true, if_false]
  exact step_done refused

theorem exec_read (x : Nat) (s : State) : exec (.read x) s = .next ((s.putReadTarget x).putState .WAIT) := rfl

/-- Settles O59: the step is `read` from the state its Operation starts in, and the input is accepted for the register it
captured; the address of the next instruction stands from the fetch on. -/
theorem nextInstructionSeesTheInput : Obligations.NextInstructionSeesTheInput := by
  intro s u t x text v inRange dispatched stepped literal valid
  obtain ⟨-, -, -, -, rfl⟩ := prepare_run dispatched
  rw [step_run dispatched, exec_read] at stepped
  cases stepped
  refine ⟨rfl, step_inactive rfl, rfl, ?_⟩
  rw [readInput_literal rfl rfl literal, acceptInput_valid _ inRange valid]
  obtain ⟨registers, undoLog, frame⟩ := State.withInput_frame x v ((s.fetched.putReadTarget x).putState .WAIT)
  have nextAddress : (State.withInput x v ((s.fetched.putReadTarget x).putState .WAIT)).pc = s.pc + 1 := by
    rw [frame]
    rfl
  exact ⟨rfl, rfl, nextAddress, by rw [reg_withInput inRange, if_pos rfl]⟩

end Sys2Proof.Machine
end

section
/-! The mode (R33, R238): no effect of an Operation, no fault, no reverse-applied edit and no other host call writes it. -/

namespace Sys2Proof.Machine

theorem Effect.mode_eq {i : Instr} {s t : State} (effect : Effect i s t) : t.mode = s.mode := by cases effect <;> rfl

theorem step_mode {s t : State} (stepped : step s = .next t) : t.mode = s.mode := by
  rcases step_cases stepped with ⟨-, rfl⟩ | ⟨-, k, rfl⟩ | ⟨-, i, -, effect⟩
  · rfl
  · rfl
  · exact effect.mode_eq

theorem stepBackward_mode (s : State) : s.stepBackward.mode = s.mode := by
  unfold State.stepBackward State.popMark
  split
  case h_1 => rfl
  case h_2 g _ _ =>
    obtain ⟨-, kept, -⟩ := revertGroup_keeps g s
    exact kept

theorem setReg_mode {i v : Int} {s t : State} (written : setReg i v s = .ok t) : t.mode = s.mode := by
  obtain ⟨-, -, -, ⟨-, rfl⟩ | ⟨-, rfl⟩⟩ := setReg_ok written <;> rfl

theorem acceptInput_mode (r : Nat) (v : Int) (s : State) : (s.acceptInput r v).2.mode = s.mode := by
  unfold State.acceptInput
  split
  case h_1 => rfl
  case h_2 t written =>
    have kept : t.mode = s.openMark.mode := setReg_mode written
    exact kept

theorem readInput_mode (text : String) (s : State) : (readInput text s).2.mode = s.mode := by
  unfold readInput
  split
  · split
    · rfl
    · rfl
    · exact acceptInput_mode _ _ s
  · rfl

theorem loadBinary_mode (text : String) (s : State) : (loadBinary text s).2.mode = s.mode := by
  unfold loadBinary
  split <;> rfl

theorem resetMachine_mode (clearProgram : Bool) (s : State) : (resetMachine clearProgram s).2.mode = s.mode := by
  unfold resetMachine
  split
  · rfl
  · split <;> rfl

/-- Settles O45, call by call. -/
theorem modeIsConstant : Obligations.ModeIsConstant := by
  intro c s
  cases c with
  | runNextInstruction =>
    simp only [State.afterCall]
    split
    case h_1 stepped => exact step_mode stepped
    case h_2 => rfl
    case h_3 => rfl
  | loadBinary text => exact loadBinary_mode text s
  | resetMachine clearProgram => exact resetMachine_mode clearProgram s
  | readInput text => exact readInput_mode text s
  | stepBackward => exact stepBackward_mode s

end Sys2Proof.Machine
end

section
/-! The load image as the parser reads it (R233, R234): its lines that are not blank, the words they give, and the texts accepted. -/

namespace Sys2Proof.Machine

/-- The lines the parser reads words from: the spaces stripped and the blank ones left out (R233). -/
def nonBlankLines (lines : List (List Char)) : List (List Char) :=
  (lines.map stripSpaces).filter (fun l => decide (l ≠ []))

theorem nonBlankLines_append (before after : List (List Char)) :
    nonBlankLines (before ++ after) = nonBlankLines before ++ nonBlankLines after := by
  simp only [nonBlankLines, List.map_append, List.filter_append]

theorem nonBlankLines_cons_of_blank {l : List Char} (blank : IsBlankLine l) (lines : List (List Char)) :
    nonBlankLines (l :: lines) = nonBlankLines lines :=
  List.filter_cons_of_neg (by simpa using stripSpaces_eq_nil.mpr blank)

theorem nonBlankLines_cons_of_not_blank {l : List Char} (notBlank : ¬ IsBlankLine l) (lines : List (List Char)) :
    nonBlankLines (l :: lines) = stripSpaces l :: nonBlankLines lines :=
  List.filter_cons_of_pos (by simpa using mt stripSpaces_eq_nil.mp notBlank)

/-- The empty text has one line, a blank one, so it does not matter that no lines make it too. -/
theorem nonBlankLines_splitLines {lines : List (List Char)} (oneLine : ∀ l ∈ lines, '\n' ∉ l) :
    nonBlankLines (splitLines (textOfLines lines).toList) = nonBlankLines lines := by
  obtain rfl | nonempty := eq_or_ne lines []
  · rfl
  · rw [splitLines_textOfLines nonempty oneLine]

theorem parseImageLines_cons_iff {l : List Char} {ls : List (List Char)} {ws : List Int} :
    parseImageLines (l :: ls) = some ws
      ↔ ∃ w us, parseImageLine l = some w ∧ parseImageLines ls = some us ∧ ws = w :: us := by
  rw [parseImageLines]
  cases parseImageLine l with
  | none => simp
  | some w => cases parseImageLines ls <;> simp [eq_comm]

theorem IsWordLine.not_blank {l : List Char} {n : Nat} (isWord : IsWordLine l n) : ¬ IsBlankLine l := by
  obtain ⟨-, digits⟩ := isWord
  exact fun blank => digits.ne_nil (stripSpaces_eq_nil.mpr blank)

theorem isImage_cons_of_blank {l : List Char} (blank : IsBlankLine l) {ls : List (List Char)} {ws : List Int} :
    IsImage (l :: ls) ws ↔ IsImage ls ws := by
  constructor
  · intro image
    cases image with
    | blank _ rest => exact rest
    | word isWord _ _ => exact absurd blank isWord.not_blank
  · exact .blank blank

theorem isImage_cons_of_not_blank {l : List Char} (notBlank : ¬ IsBlankLine l) {ls : List (List Char)} {ws : List Int} :
    IsImage (l :: ls) ws
      ↔ ∃ (w : Int) (us : List Int), (∃ n : Nat, IsWordLine l n ∧ VALID n ∧ w = n) ∧ IsImage ls us ∧ ws = w :: us := by
  constructor
  · intro image
    cases image with
    | blank blank _ => exact absurd blank notBlank
    | word isWord valid rest => exact ⟨_, _, ⟨_, isWord, valid, rfl⟩, rest, rfl⟩
  · rintro ⟨_, us, ⟨n, isWord, valid, rfl⟩, rest, rfl⟩
    exact .word isWord valid rest

theorem parseImageLines_iff {lines : List (List Char)} {ws : List Int} :
    parseImageLines (nonBlankLines lines) = some ws ↔ IsImage lines ws := by
  induction lines generalizing ws with
  | nil =>
    constructor
    · rintro ⟨⟩
      exact .nil
    · rintro ⟨⟩
      rfl
  | cons l ls ih =>
    by_cases blank : IsBlankLine l
    · rw [nonBlankLines_cons_of_blank blank, isImage_cons_of_blank blank, ih]
    · rw [nonBlankLines_cons_of_not_blank blank, isImage_cons_of_not_blank blank, parseImageLines_cons_iff]
      simp only [parseImageLine_iff, ih]

theorem parseImage_eq_some_iff {text : String} {ws : List Int} :
    parseImage text = some ws ↔ parseImageLines (nonBlankLines (splitLines text.toList)) = some ws ∧ ws.length ≤ 256 := by
  unfold parseImage
  split
  case h_1 refused =>
    have noWords : parseImageLines (nonBlankLines (splitLines text.toList)) = none := refused
    simp [noWords]
  case h_2 us read =>
    have words : parseImageLines (nonBlankLines (splitLines text.toList)) = some us := read
    rw [words, Option.ite_none_right_eq_some, and_comm]
    exact and_congr_right fun same => by rw [Option.some.inj same, Config.RAM_SIZE]

/-- Any text, given by its lines, is accepted exactly if they are an image that fits in memory (R234). -/
theorem parseImage_textOfLines_iff {lines : List (List Char)} (oneLine : ∀ l ∈ lines, '\n' ∉ l) {ws : List Int} :
    parseImage (textOfLines lines) = some ws ↔ IsImage lines ws ∧ ws.length ≤ 256 := by
  rw [parseImage_eq_some_iff, nonBlankLines_splitLines oneLine, parseImageLines_iff]

theorem parseImage_textOfLines_congr {lines lines' : List (List Char)} (oneLine : ∀ l ∈ lines, '\n' ∉ l)
    (oneLine' : ∀ l ∈ lines', '\n' ∉ l) (same : nonBlankLines lines = nonBlankLines lines') :
    parseImage (textOfLines lines) = parseImage (textOfLines lines') :=
  Option.ext fun ws => by
    rw [parseImage_textOfLines_iff oneLine, parseImage_textOfLines_iff oneLine', ← parseImageLines_iff,
      ← parseImageLines_iff, same]

/-- A word of an image is loadable: its digits make it nonnegative, and its line was refused if it were 65535 (R234 (c)). -/
theorem IsImage.word_range {lines : List (List Char)} {ws : List Int} (image : IsImage lines ws) :
    ∀ w ∈ ws, 0 ≤ w ∧ w ≤ 65534 := by
  induction image with
  | nil => exact fun _ isIn => absurd isIn List.not_mem_nil
  | blank _ _ ih => exact ih
  | word _ valid _ ih =>
    obtain ⟨-, loadable⟩ := (valid_iff _).mp valid
    exact List.forall_mem_cons.mpr ⟨⟨Int.natCast_nonneg _, loadable⟩, ih⟩

theorem IsImage.isWordLine_of_mem {lines : List (List Char)} {ws : List Int} (image : IsImage lines ws) {l : List Char}
    (isIn : l ∈ lines) (notBlank : ¬ IsBlankLine l) : ∃ n, IsWordLine l n := by
  induction image with
  | nil => cases isIn
  | blank blank _ ih =>
    rcases List.mem_cons.mp isIn with rfl | later
    · exact absurd blank notBlank
    · exact ih later
  | word isWord _ _ ih =>
    rcases List.mem_cons.mp isIn with rfl | later
    · exact ⟨_, isWord⟩
    · exact ih later

end Sys2Proof.Machine
end

section
/-! The load image as the assembler writes it (R117): the line of a word is a word line of that word, and the text is made of these
lines. -/

namespace Sys2Proof.Machine

theorem bitChar_ne {c : Char} (notZero : '0' ≠ c) (notOne : '1' ≠ c) (w k : Nat) : bitChar w k ≠ c := by
  unfold bitChar
  split
  · exact notOne
  · exact notZero

theorem isDigit_bitChar (w k : Nat) : IsDigit 2 (bitChar w k) (w / 2 ^ k % 2) := by
  rw [← binaryDigit_iff, ← Nat.toNat_testBit, bitChar]
  cases w.testBit k <;> rfl

/-- The `n` bits of `w` from bit `k` on as characters, most significant first. -/
def bitsFrom (w k : Nat) : Nat → List Char
  | 0 => []
  | n + 1 => bitsFrom w (k + 1) n ++ [bitChar w k]

/-- Reading one bit more is halving once less: the bits above `k` denote `w / 2 ^ (k + 1)`. -/
theorem isNumeral_bitsFrom {w : Nat} (n : Nat) {k : Nat} (fits : w / 2 ^ k < 2 ^ (n + 1)) :
    IsNumeral 2 (bitsFrom w k (n + 1)) (w / 2 ^ k) := by
  induction n generalizing k with
  | zero =>
    have lastBit : w / 2 ^ k % 2 = w / 2 ^ k := Nat.mod_eq_of_lt fits
    rw [← lastBit]
    exact .digit (isDigit_bitChar w k)
  | succ n ih =>
    have halved : w / 2 ^ (k + 1) = w / 2 ^ k / 2 := by rw [Nat.div_div_eq_div_mul, Nat.pow_succ]
    have above : IsNumeral 2 (bitsFrom w (k + 1) (n + 1)) (w / 2 ^ (k + 1)) := ih (by rw [Nat.pow_succ] at fits; omega)
    have value : w / 2 ^ k = w / 2 ^ (k + 1) * 2 + w / 2 ^ k % 2 := by omega
    rw [value]
    exact .snoc above (isDigit_bitChar w k)

/-- The spaces between the nibbles are all that stripping takes. -/
theorem filter_wordLine (w : Nat) : (wordLine w).filter (· ≠ ' ') = bitsFrom w 0 16 := by
  have isBit (k : Nat) : bitChar w k ≠ ' ' := bitChar_ne (by decide) (by decide) w k
  simp [wordLine, bitsFrom, isBit]

theorem length_bitsFrom (w k n : Nat) : (bitsFrom w k n).length = n := by
  induction n generalizing k with
  | zero => rfl
  | succ n ih => rw [bitsFrom, List.length_append, ih, List.length_singleton]

theorem isWordLine_wordLine {w : Nat} (inRange : w < 65536) : IsWordLine (wordLine w) w := by
  rw [IsWordLine, filter_wordLine]
  have denotes : IsNumeral 2 (bitsFrom w 0 16) (w / 2 ^ 0) := isNumeral_bitsFrom 15 (by omega)
  rw [Nat.pow_zero, Nat.div_one] at denotes
  exact ⟨length_bitsFrom w 0 16, denotes⟩

theorem newline_notMem_wordLine (w : Nat) : '\n' ∉ wordLine w := by
  have notBit (k : Nat) : '\n' ≠ bitChar w k := (bitChar_ne (by decide) (by decide) w k).symm
  simp [wordLine, notBit]

/-- The newline after the last word begins one more line, which is empty. -/
def imageLines (ws : List Nat) : List (List Char) := ws.map wordLine ++ [[]]

theorem imageText_eq (ws : List Nat) : imageText ws = textOfLines (imageLines ws) := by
  rw [imageText, textOfLines, imageLines]
  congr 1
  induction ws with
  | nil => rfl
  | cons w ws ih =>
    rw [List.flatMap_cons, ih, List.map_cons, List.cons_append, List.intercalate_cons_of_ne_nil (by simp)]

theorem newline_notMem_imageLines (ws : List Nat) : ∀ l ∈ imageLines ws, '\n' ∉ l := by
  have inWords : ∀ l ∈ ws.map wordLine, '\n' ∉ l := List.forall_mem_map.mpr fun w _ => newline_notMem_wordLine w
  exact List.forall_mem_append.mpr ⟨inWords, List.forall_mem_singleton.mpr List.not_mem_nil⟩

theorem isImage_imageLines {ws : List Nat} (inRange : ∀ w ∈ ws, w < 65535) :
    IsImage (imageLines ws) (ws.map Nat.cast) := by
  induction ws with
  | nil => exact .blank (fun _ isIn => absurd isIn List.not_mem_nil) .nil
  | cons w ws ih =>
    obtain ⟨first, rest⟩ := List.forall_mem_cons.mp inRange
    have valid : VALID (w : Int) := (valid_iff _).mpr (by omega)
    exact .word (isWordLine_wordLine (by omega)) valid (ih rest)

/-- The statement's list of integers is the list of words with each one cast. -/
theorem map_coe_eq_map_natCast (ws : List Nat) : (ws : List Int).map (fun w => w) = ws.map Nat.cast := by
  rw [List.map_id', List.bind_eq_flatMap]
  exact List.flatMap_pure_eq_map _ ws

/-- Settles O56: the parser accepts exactly the images, the assembler's text among them. -/
theorem imageTextIsParsedBack : Obligations.ImageTextIsParsedBack := by
  refine ⟨?_, ?_, fun _ _ oneLine => parseImage_textOfLines_iff oneLine, ?_, ?_⟩
  · intro ws short inRange
    rw [map_coe_eq_map_natCast, imageText_eq, parseImage_textOfLines_iff (newline_notMem_imageLines ws)]
    exact ⟨isImage_imageLines inRange, by rwa [List.length_map]⟩
  · intro text ws accepted
    obtain ⟨isText, oneLine⟩ := textOfLines_splitLines text
    rw [← isText, parseImage_textOfLines_iff oneLine] at accepted
    obtain ⟨image, short⟩ := accepted
    exact ⟨short, image.word_range⟩
  · intro lines l oneLine isIn notBlank notWord
    refine Option.eq_none_iff_forall_ne_some.mpr fun ws accepted => notWord ?_
    obtain ⟨image, -⟩ := (parseImage_textOfLines_iff oneLine).mp accepted
    exact image.isWordLine_of_mem isIn notBlank
  · intro before after l oneLine blank
    have noNewline : '\n' ∉ l := fun isIn => absurd (blank _ isIn) (by decide)
    refine parseImage_textOfLines_congr ?_ oneLine ?_
    · obtain ⟨inBefore, inAfter⟩ := List.forall_mem_append.mp oneLine
      exact List.forall_mem_append.mpr ⟨inBefore, List.forall_mem_cons.mpr ⟨noNewline, inAfter⟩⟩
    · rw [nonBlankLines_append, nonBlankLines_cons_of_blank blank, nonBlankLines_append]

end Sys2Proof.Machine
end

section
/-! The decoder by the leading nibble (R75, R93): one equation for each value of it, with the operand fields as numbers. -/

namespace Sys2Proof

/-- The values of a leading nibble. -/
theorem nibble_cases (a : BitVec 4) :
    a = 0#4 ∨ a = 1#4 ∨ a = 2#4 ∨ a = 3#4 ∨ a = 4#4 ∨ a = 5#4 ∨ a = 6#4 ∨ a = 7#4 ∨ a = 8#4 ∨ a = 9#4 ∨ a = 10#4
      ∨ a = 11#4 ∨ a = 12#4 ∨ a = 13#4 ∨ a = 14#4 ∨ a = 15#4 := by
  revert a
  decide

theorem nibble_toNat_eq_iff (d : BitVec 4) (n : Nat) (inRange : n < 16) : d.toNat = n ↔ d = BitVec.ofNat 4 n := by
  rw [← BitVec.toNat_inj, BitVec.toNat_ofNat, Nat.mod_eq_of_lt inRange]

theorem two_nibbles_eq_iff (c d : BitVec 4) (n : Nat) (inRange : n < 16) :
    c.toNat * 16 + d.toNat = n ↔ c = 0#4 ∧ d = BitVec.ofNat 4 n := by
  rw [← nibble_toNat_eq_iff c 0 (by decide), ← nibble_toNat_eq_iff d n inRange]
  omega

theorem two_nibbles_lt (c d : BitVec 4) : c.toNat * 16 + d.toNat < 256 := by
  have := c.isLt
  have := d.isLt
  omega

section
variable (b c d : BitVec 4)

theorem decode_leading0 : decode (nibbles 0#4 b c d) =
    if c.toNat * 16 + d.toNat = 0 ∧ b.toNat = 0 then .ok .halt
    else if c.toNat * 16 + d.toNat = 1 then .ok (.read b.toNat)
    else if c.toNat * 16 + d.toNat = 2 then .ok (.write b.toNat)
    else if c.toNat * 16 + d.toNat = 3 then .ok (.jumpr b.toNat)
    else .error .decodeFailure := by
  simp [decode_nibbles, two_nibbles_eq_iff, nibble_toNat_eq_iff, and_comm]

theorem decode_leading1 : decode (nibbles 1#4 b c d) = .ok (.setn b.toNat (sext8 (c.toNat * 16 + d.toNat))) := by
  simp [decode_nibbles]

theorem decode_leading2 : decode (nibbles 2#4 b c d) = .ok (.loadn b.toNat (c.toNat * 16 + d.toNat)) := by
  simp [decode_nibbles]

theorem decode_leading3 : decode (nibbles 3#4 b c d) = .ok (.storen b.toNat (c.toNat * 16 + d.toNat)) := by
  simp [decode_nibbles]

theorem decode_leading4 : decode (nibbles 4#4 b c d) =
    if d.toNat = 0 then .ok (.loadr b.toNat c.toNat)
    else if d.toNat = 1 then .ok (.storer b.toNat c.toNat)
    else .error .decodeFailure := by
  simp [decode_nibbles, nibble_toNat_eq_iff]

theorem decode_leading5 : decode (nibbles 5#4 b c d) = .ok (.addn b.toNat (sext8 (c.toNat * 16 + d.toNat))) := by
  simp [decode_nibbles]

theorem decode_leading6 : decode (nibbles 6#4 b c d) =
    if nibbles 6#4 b c d = 0x6000#16 then .ok .nop
    else if d.toNat = 0 then .ok (.copy b.toNat c.toNat)
    else .ok (.add b.toNat c.toNat d.toNat) := by
  simp [decode_nibbles, nibble_toNat_eq_iff, leadPattern6, nibbles_inj]

theorem decode_leading7 : decode (nibbles 7#4 b c d) =
    if c.toNat = 0 then .ok (.neg b.toNat d.toNat) else .ok (.sub b.toNat c.toNat d.toNat) := by
  simp [decode_nibbles, nibble_toNat_eq_iff]

theorem decode_leading8 : decode (nibbles 8#4 b c d) = .ok (.mul b.toNat c.toNat d.toNat) := by simp [decode_nibbles]

theorem decode_leading9 : decode (nibbles 9#4 b c d) = .ok (.div b.toNat c.toNat d.toNat) := by simp [decode_nibbles]

theorem decode_leading10 : decode (nibbles 10#4 b c d) = .ok (.mod b.toNat c.toNat d.toNat) := by simp [decode_nibbles]

theorem decode_leading11 : decode (nibbles 11#4 b c d) =
    if b.toNat = 0 then .ok (.jumpn (c.toNat * 16 + d.toNat)) else .ok (.calln b.toNat (c.toNat * 16 + d.toNat)) := by
  simp [decode_nibbles, nibble_toNat_eq_iff]

theorem decode_leading12 : decode (nibbles 12#4 b c d) = .ok (.jeqzn b.toNat (c.toNat * 16 + d.toNat)) := by
  simp [decode_nibbles]

theorem decode_leading13 : decode (nibbles 13#4 b c d) = .ok (.jnezn b.toNat (c.toNat * 16 + d.toNat)) := by
  simp [decode_nibbles]

theorem decode_leading14 : decode (nibbles 14#4 b c d) = .ok (.jgtzn b.toNat (c.toNat * 16 + d.toNat)) := by
  simp [decode_nibbles]

theorem decode_leading15 : decode (nibbles 15#4 b c d) = .ok (.jltzn b.toNat (c.toNat * 16 + d.toNat)) := by
  simp [decode_nibbles]

end

/-- Settles O5: a word is four nibbles, and each leading nibble has its equation. -/
theorem decodeFollowsTheOpcodeMap : Obligations.DecodeFollowsTheOpcodeMap := by
  intro w
  obtain ⟨a, b, c, d, rfl⟩ := exists_nibbles w
  rw [bits_lead, bits_first, bits_second, bits_third, bits_low]
  rcases nibble_cases a with rfl | rfl | rfl | rfl | rfl | rfl | rfl | rfl | rfl | rfl | rfl | rfl | rfl | rfl | rfl | rfl
  · exact decode_leading0 b c d
  · exact decode_leading1 b c d
  · exact decode_leading2 b c d
  · exact decode_leading3 b c d
  · exact decode_leading4 b c d
  · exact decode_leading5 b c d
  · exact decode_leading6 b c d
  · exact decode_leading7 b c d
  · exact decode_leading8 b c d
  · exact decode_leading9 b c d
  · exact decode_leading10 b c d
  · exact decode_leading11 b c d
  · exact decode_leading12 b c d
  · exact decode_leading13 b c d
  · exact decode_leading14 b c d
  · exact decode_leading15 b c d

/-- A branch of the map that is legal is no decode failure, so a failure comes from what is left. -/
theorem ite_ok_eq_error_iff {p : Prop} [Decidable p] {i : Instr} {r : Except DecodeError Instr} {e : DecodeError} :
    (if p then .ok i else r) = .error e ↔ ¬ p ∧ r = .error e := by
  split
  case isTrue holds => simp [holds]
  case isFalse fails => simp [fails]

/-- Settles O8: in the opcode map only the leading nibbles 0 and 4 leave words over, those their own tests reject. -/
theorem illegalWordsAreExactlyThese : Obligations.IllegalWordsAreExactlyThese := by
  intro w
  rw [decodeFollowsTheOpcodeMap w]
  split
  case h_1 system => simp [ite_ok_eq_error_iff, system]
  case h_5 indirect =>
    have pastStorer : ¬ Word.bits w 3 0 = 0 ∧ ¬ Word.bits w 3 0 = 1 ↔ 2 ≤ Word.bits w 3 0 := by omega
    simp [ite_ok_eq_error_iff, indirect, pastStorer]
  all_goals simp_all [ite_ok_eq_error_iff]

end Sys2Proof
end

section
/-! From a word to its instruction and back (R87, R92): each row of the table by the equation of its leading nibble and that of its
encoding. -/

namespace Sys2Proof

/-! ## The operands of nibbles are in range (R87) -/

@[simp] theorem Operand.wf_reg_nibble (x : BitVec 4) : Operand.wf (.reg x.toNat) = true := decide_eq_true x.isLt

@[simp] theorem Operand.wf_unsigned_nibbles (c d : BitVec 4) : Operand.wf (.unsigned (c.toNat * 16 + d.toNat)) = true :=
  decide_eq_true (two_nibbles_lt c d)

@[simp] theorem Operand.wf_signed_nibbles (c d : BitVec 4) :
    Operand.wf (.signed (sext8 (c.toNat * 16 + d.toNat))) = true := by
  simp [Operand.wf, sext8_range (two_nibbles_lt c d)]

theorem encode_setn_sext8 (x c d : BitVec 4) :
    encode (.setn x.toNat (sext8 (c.toNat * 16 + d.toNat))) = nibbles 1#4 x c d :=
  encode_setn x c d (tc8_sext8 (two_nibbles_lt c d))

theorem encode_addn_sext8 (x c d : BitVec 4) :
    encode (.addn x.toNat (sext8 (c.toNat * 16 + d.toNat))) = nibbles 5#4 x c d :=
  encode_addn x c d (tc8_sext8 (two_nibbles_lt c d))

/-! ## The instruction of a word -/

/-- `i` is an instruction the word `w` stands for, with operands in range that no more specific row takes (R82, R87, R92). -/
def IsInstrOf (w : Word) (i : Instr) : Prop := encode i = w ∧ i.wf = true ∧ i.overlapped = false

section
variable {b c d : BitVec 4} {i : Instr}

theorem isInstrOf_leading0 (decodes : decode (nibbles 0#4 b c d) = .ok i) : IsInstrOf (nibbles 0#4 b c d) i := by
  rw [decode_leading0] at decodes
  split at decodes
  · next fields =>
    obtain ⟨rfl, rfl⟩ := (two_nibbles_eq_iff c d 0 (by decide)).mp fields.1
    obtain rfl := (nibble_toNat_eq_iff b 0 (by decide)).mp fields.2
    cases decodes
    exact ⟨encode_halt, rfl, rfl⟩
  split at decodes
  · next low =>
    obtain ⟨rfl, rfl⟩ := (two_nibbles_eq_iff c d 1 (by decide)).mp low
    cases decodes
    exact ⟨encode_read b, by simp [Instr.wf, Instr.operands], rfl⟩
  split at decodes
  · next low =>
    obtain ⟨rfl, rfl⟩ := (two_nibbles_eq_iff c d 2 (by decide)).mp low
    cases decodes
    exact ⟨encode_write b, by simp [Instr.wf, Instr.operands], rfl⟩
  split at decodes
  · next low =>
    obtain ⟨rfl, rfl⟩ := (two_nibbles_eq_iff c d 3 (by decide)).mp low
    cases decodes
    exact ⟨encode_jumpr b, by simp [Instr.wf, Instr.operands], rfl⟩
  · cases decodes

theorem isInstrOf_leading4 (decodes : decode (nibbles 4#4 b c d) = .ok i) : IsInstrOf (nibbles 4#4 b c d) i := by
  rw [decode_leading4] at decodes
  split at decodes
  · next last =>
    obtain rfl := (nibble_toNat_eq_iff d 0 (by decide)).mp last
    cases decodes
    exact ⟨encode_loadr b c, by simp [Instr.wf, Instr.operands], rfl⟩
  split at decodes
  · next last =>
    obtain rfl := (nibble_toNat_eq_iff d 1 (by decide)).mp last
    cases decodes
    exact ⟨encode_storer b c, by simp [Instr.wf, Instr.operands], rfl⟩
  · cases decodes

theorem isInstrOf_leading6 (decodes : decode (nibbles 6#4 b c d) = .ok i) : IsInstrOf (nibbles 6#4 b c d) i := by
  rw [decode_leading6] at decodes
  split at decodes
  · next isNop =>
    cases decodes
    exact ⟨isNop.symm, rfl, rfl⟩
  split at decodes
  · next notNop last =>
    obtain rfl := (nibble_toNat_eq_iff d 0 (by decide)).mp last
    cases decodes
    have notOverlapped : Instr.overlapped (.copy b.toNat c.toNat) = false := by
      simpa [Instr.overlapped, nibble_toNat_eq_iff, leadPattern6, nibbles_inj] using notNop
    exact ⟨encode_copy b c, by simp [Instr.wf, Instr.operands], notOverlapped⟩
  · next last =>
    cases decodes
    exact ⟨encode_add b c d, by simp [Instr.wf, Instr.operands], decide_eq_false last⟩

theorem isInstrOf_leading7 (decodes : decode (nibbles 7#4 b c d) = .ok i) : IsInstrOf (nibbles 7#4 b c d) i := by
  rw [decode_leading7] at decodes
  split at decodes
  · next second =>
    obtain rfl := (nibble_toNat_eq_iff c 0 (by decide)).mp second
    cases decodes
    exact ⟨encode_neg b d, by simp [Instr.wf, Instr.operands], rfl⟩
  · next second =>
    cases decodes
    exact ⟨encode_sub b c d, by simp [Instr.wf, Instr.operands], decide_eq_false second⟩

theorem isInstrOf_leading11 (decodes : decode (nibbles 11#4 b c d) = .ok i) : IsInstrOf (nibbles 11#4 b c d) i := by
  rw [decode_leading11] at decodes
  split at decodes
  · next first =>
    obtain rfl := (nibble_toNat_eq_iff b 0 (by decide)).mp first
    cases decodes
    exact ⟨encode_jumpn c d, by simp [Instr.wf, Instr.operands], rfl⟩
  · next first =>
    cases decodes
    exact ⟨encode_calln b c d, by simp [Instr.wf, Instr.operands], decide_eq_false first⟩

end

/-- A leading nibble with one row: the row's two equations are all that is asked. -/
theorem isInstrOf_of_encode {w : Word} {i j : Instr} (decodes : decode w = .ok i) (row : decode w = .ok j)
    (encodes : encode j = w) (wf : j.wf = true := by simp [Instr.wf, Instr.operands])
    (notOverlapped : j.overlapped = false := by rfl) : IsInstrOf w i := by
  rw [row] at decodes
  cases decodes
  exact ⟨encodes, wf, notOverlapped⟩

/-- Settles O7, leading nibble by leading nibble. -/
theorem encodeInvertsDecode : Obligations.EncodeInvertsDecode := by
  intro w i decodes
  obtain ⟨a, b, c, d, rfl⟩ := exists_nibbles w
  rcases nibble_cases a with rfl | rfl | rfl | rfl | rfl | rfl | rfl | rfl | rfl | rfl | rfl | rfl | rfl | rfl | rfl | rfl
  · exact isInstrOf_leading0 decodes
  · exact isInstrOf_of_encode decodes (decode_leading1 b c d) (encode_setn_sext8 b c d)
  · exact isInstrOf_of_encode decodes (decode_leading2 b c d) (encode_loadn b c d)
  · exact isInstrOf_of_encode decodes (decode_leading3 b c d) (encode_storen b c d)
  · exact isInstrOf_leading4 decodes
  · exact isInstrOf_of_encode decodes (decode_leading5 b c d) (encode_addn_sext8 b c d)
  · exact isInstrOf_leading6 decodes
  · exact isInstrOf_leading7 decodes
  · exact isInstrOf_of_encode decodes (decode_leading8 b c d) (encode_mul b c d)
  · exact isInstrOf_of_encode decodes (decode_leading9 b c d) (encode_div b c d)
  · exact isInstrOf_of_encode decodes (decode_leading10 b c d) (encode_mod b c d)
  · exact isInstrOf_leading11 decodes
  · exact isInstrOf_of_encode decodes (decode_leading12 b c d) (encode_jeqzn b c d)
  · exact isInstrOf_of_encode decodes (decode_leading13 b c d) (encode_jnezn b c d)
  · exact isInstrOf_of_encode decodes (decode_leading14 b c d) (encode_jgtzn b c d)
  · exact isInstrOf_of_encode decodes (decode_leading15 b c d) (encode_jltzn b c d)

end Sys2Proof
end

section
/-! From an instruction to its word and back (R91): operands in range are nibbles, format by format, so that encoding and decoding go by
the equations on nibbles. -/

namespace Sys2Proof

section
variable {x y z n : Nat} {v : Int}

theorem exists_nibble_of_wf (wf : Operand.wf (.reg x) = true) : ∃ r : BitVec 4, x = r.toNat :=
  exists_nibble (of_decide_eq_true wf)

theorem exists_nibbles_of_wf_unsigned (wf : Operand.wf (.unsigned n) = true) :
    ∃ c d : BitVec 4, n = c.toNat * 16 + d.toNat :=
  exists_two_nibbles (of_decide_eq_true wf)

theorem exists_nibbles_of_wf_signed (wf : Operand.wf (.signed v) = true) :
    ∃ c d : BitVec 4, v = sext8 (c.toNat * 16 + d.toNat) := by
  obtain ⟨low, high⟩ : -128 ≤ v ∧ v ≤ 127 := by simpa [Operand.wf] using wf
  obtain ⟨c, d, field⟩ := exists_two_nibbles (tc8_lt low (by omega))
  exact ⟨c, d, by rw [← field, sext8_tc8 low high]⟩

theorem exists_nibbles_of_wf_r (wf : [Operand.reg x].all Operand.wf = true) : ∃ r : BitVec 4, x = r.toNat :=
  exists_nibble_of_wf (by simpa using wf)

theorem exists_nibbles_of_wf_rr (wf : [Operand.reg x, .reg y].all Operand.wf = true) :
    ∃ r q : BitVec 4, x = r.toNat ∧ y = q.toNat := by
  obtain ⟨first, second⟩ : Operand.wf (.reg x) = true ∧ Operand.wf (.reg y) = true := by simpa using wf
  obtain ⟨r, rfl⟩ := exists_nibble_of_wf first
  obtain ⟨q, rfl⟩ := exists_nibble_of_wf second
  exact ⟨r, q, rfl, rfl⟩

theorem exists_nibbles_of_wf_rrr (wf : [Operand.reg x, .reg y, .reg z].all Operand.wf = true) :
    ∃ r q p : BitVec 4, x = r.toNat ∧ y = q.toNat ∧ z = p.toNat := by
  obtain ⟨first, rest⟩ : Operand.wf (.reg x) = true ∧ [Operand.reg y, .reg z].all Operand.wf = true := by simpa using wf
  obtain ⟨r, rfl⟩ := exists_nibble_of_wf first
  obtain ⟨q, p, rfl, rfl⟩ := exists_nibbles_of_wf_rr rest
  exact ⟨r, q, p, rfl, rfl, rfl⟩

theorem exists_nibbles_of_wf_u (wf : [Operand.unsigned n].all Operand.wf = true) :
    ∃ c d : BitVec 4, n = c.toNat * 16 + d.toNat :=
  exists_nibbles_of_wf_unsigned (by simpa using wf)

theorem exists_nibbles_of_wf_ru (wf : [Operand.reg x, .unsigned n].all Operand.wf = true) :
    ∃ r c d : BitVec 4, x = r.toNat ∧ n = c.toNat * 16 + d.toNat := by
  obtain ⟨first, second⟩ : Operand.wf (.reg x) = true ∧ Operand.wf (.unsigned n) = true := by simpa using wf
  obtain ⟨r, rfl⟩ := exists_nibble_of_wf first
  obtain ⟨c, d, rfl⟩ := exists_nibbles_of_wf_unsigned second
  exact ⟨r, c, d, rfl, rfl⟩

theorem exists_nibbles_of_wf_rs (wf : [Operand.reg x, .signed v].all Operand.wf = true) :
    ∃ r c d : BitVec 4, x = r.toNat ∧ v = sext8 (c.toNat * 16 + d.toNat) := by
  obtain ⟨first, second⟩ : Operand.wf (.reg x) = true ∧ Operand.wf (.signed v) = true := by simpa using wf
  obtain ⟨r, rfl⟩ := exists_nibble_of_wf first
  obtain ⟨c, d, rfl⟩ := exists_nibbles_of_wf_signed second
  exact ⟨r, c, d, rfl, rfl⟩

end

/-- The words of `copy`, the one of `nop` among them (R82). -/
theorem decode_copy_word (x y : BitVec 4) :
    decode (nibbles 6#4 x y 0#4) = if x.toNat = 0 ∧ y.toNat = 0 then .ok .nop else .ok (.copy x.toNat y.toNat) := by
  have isNop : nibbles 6#4 x y 0#4 = 0x6000#16 ↔ x.toNat = 0 ∧ y.toNat = 0 := by
    simp [leadPattern6, nibbles_inj, nibble_toNat_eq_iff]
  simp only [decode_leading6, isNop]
  rfl

theorem decode_encode_add {x y z : BitVec 4} (nonzero : z.toNat ≠ 0) :
    decode (encode (.add x.toNat y.toNat z.toNat)) = .ok (.add x.toNat y.toNat z.toNat) := by
  have notNop : nibbles 6#4 x y z ≠ 0x6000#16 := by
    simp [leadPattern6, nibbles_inj, ← nibble_toNat_eq_iff z 0, nonzero]
  rw [encode_add, decode_leading6, if_neg notNop, if_neg nonzero]

theorem decode_encode {i : Instr} (wf : i.wf = true) (notOverlapped : i.overlapped = false) : decode (encode i) = .ok i := by
  cases i with
  | halt => rw [encode_halt]; exact decode_leading0 0#4 0#4 0#4
  | read => obtain ⟨x, rfl⟩ := exists_nibbles_of_wf_r wf; rw [encode_read]; exact decode_leading0 x 0#4 1#4
  | write => obtain ⟨x, rfl⟩ := exists_nibbles_of_wf_r wf; rw [encode_write]; exact decode_leading0 x 0#4 2#4
  | jumpr => obtain ⟨x, rfl⟩ := exists_nibbles_of_wf_r wf; rw [encode_jumpr]; exact decode_leading0 x 0#4 3#4
  | setn => obtain ⟨x, c, d, rfl, rfl⟩ := exists_nibbles_of_wf_rs wf; rw [encode_setn_sext8, decode_leading1]
  | loadn => obtain ⟨x, c, d, rfl, rfl⟩ := exists_nibbles_of_wf_ru wf; rw [encode_loadn, decode_leading2]
  | storen => obtain ⟨x, c, d, rfl, rfl⟩ := exists_nibbles_of_wf_ru wf; rw [encode_storen, decode_leading3]
  | loadr => obtain ⟨x, y, rfl, rfl⟩ := exists_nibbles_of_wf_rr wf; rw [encode_loadr]; exact decode_leading4 x y 0#4
  | storer => obtain ⟨x, y, rfl, rfl⟩ := exists_nibbles_of_wf_rr wf; rw [encode_storer]; exact decode_leading4 x y 1#4
  | addn => obtain ⟨x, c, d, rfl, rfl⟩ := exists_nibbles_of_wf_rs wf; rw [encode_addn_sext8, decode_leading5]
  | nop => rw [encode_nop]; exact decode_copy_word 0#4 0#4
  | copy =>
    obtain ⟨x, y, rfl, rfl⟩ := exists_nibbles_of_wf_rr wf
    have notBothZero : ¬ (x.toNat = 0 ∧ y.toNat = 0) := by simpa [Instr.overlapped] using notOverlapped
    rw [encode_copy, decode_copy_word, if_neg notBothZero]
  | add =>
    obtain ⟨x, y, z, rfl, rfl, rfl⟩ := exists_nibbles_of_wf_rrr wf
    exact decode_encode_add (of_decide_eq_false notOverlapped)
  | neg => obtain ⟨x, z, rfl, rfl⟩ := exists_nibbles_of_wf_rr wf; rw [encode_neg]; exact decode_leading7 x 0#4 z
  | sub =>
    obtain ⟨x, y, z, rfl, rfl, rfl⟩ := exists_nibbles_of_wf_rrr wf
    rw [encode_sub, decode_leading7, if_neg (of_decide_eq_false notOverlapped)]
  | mul => obtain ⟨x, y, z, rfl, rfl, rfl⟩ := exists_nibbles_of_wf_rrr wf; rw [encode_mul, decode_leading8]
  | div => obtain ⟨x, y, z, rfl, rfl, rfl⟩ := exists_nibbles_of_wf_rrr wf; rw [encode_div, decode_leading9]
  | mod => obtain ⟨x, y, z, rfl, rfl, rfl⟩ := exists_nibbles_of_wf_rrr wf; rw [encode_mod, decode_leading10]
  | jumpn => obtain ⟨c, d, rfl⟩ := exists_nibbles_of_wf_u wf; rw [encode_jumpn]; exact decode_leading11 0#4 c d
  | calln =>
    obtain ⟨x, c, d, rfl, rfl⟩ := exists_nibbles_of_wf_ru wf
    rw [encode_calln, decode_leading11, if_neg (of_decide_eq_false notOverlapped)]
  | jeqzn => obtain ⟨x, c, d, rfl, rfl⟩ := exists_nibbles_of_wf_ru wf; rw [encode_jeqzn, decode_leading12]
  | jnezn => obtain ⟨x, c, d, rfl, rfl⟩ := exists_nibbles_of_wf_ru wf; rw [encode_jnezn, decode_leading13]
  | jgtzn => obtain ⟨x, c, d, rfl, rfl⟩ := exists_nibbles_of_wf_ru wf; rw [encode_jgtzn, decode_leading14]
  | jltzn => obtain ⟨x, c, d, rfl, rfl⟩ := exists_nibbles_of_wf_ru wf; rw [encode_jltzn, decode_leading15]

/-- Settles O6: outside the overlaps by `decode_encode`; inside them the word is that of the more specific row. -/
theorem decodeInvertsEncode : Obligations.DecodeInvertsEncode := by
  refine ⟨fun _ => decode_encode, decode_copy_word 0#4 0#4, ?_, ?_, ?_⟩
  · intro x y xInRange yInRange
    obtain ⟨x, rfl⟩ := exists_nibble xInRange
    obtain ⟨y, rfl⟩ := exists_nibble yInRange
    exact (congrArg decode (encode_add x y 0#4)).trans (decode_copy_word x y)
  · intro x z xInRange zInRange
    obtain ⟨x, rfl⟩ := exists_nibble xInRange
    obtain ⟨z, rfl⟩ := exists_nibble zInRange
    exact (congrArg decode (encode_sub x 0#4 z)).trans (decode_leading7 x 0#4 z)
  · intro n inRange
    obtain ⟨c, d, rfl⟩ := exists_two_nibbles inRange
    exact (congrArg decode (encode_calln 0#4 c d)).trans (decode_leading11 0#4 c d)

end Sys2Proof
end

section
/-! The invariant under the logged updates (R42, R218): every one of them is the reverse-application of an edit, the one with the new
value, and pushes the edit with the old value, so one lemma on legal edits serves them and `stepBackward` alike. -/

namespace Sys2Proof.Machine

/-! ## Legal edits -/

/-- What an edit is tested against is the mode, the boundary and whether a register is captured. -/
theorem Edit.legal_of_same {s t : State} (mode : t.mode = s.mode) (boundary : t.codeSegmentBoundary = s.codeSegmentBoundary)
    (captured : s.readTarget.isSome = true → t.readTarget.isSome = true) {e : Edit} (legal : e.legal s) : e.legal t := by
  cases e with
  | ram a v =>
    obtain ⟨inRange, valid, unprotected⟩ := legal
    exact ⟨inRange, valid, by rwa [mode, boundary]⟩
  | state r =>
    obtain ⟨notEmpty, waiting⟩ := legal
    exact ⟨notEmpty, captured ∘ waiting⟩
  | _ => exact legal

/-- Reverse-applying an edit leaves what edits are tested against. -/
theorem Edit.legal_revert {s : State} (e : Edit) {f : Edit} (legal : f.legal s) : f.legal (e.revert s) := by
  have same : (e.revert s).mode = s.mode ∧ (e.revert s).codeSegmentBoundary = s.codeSegmentBoundary
      ∧ (e.revert s).readTarget = s.readTarget := by cases e <;> exact ⟨rfl, rfl, rfl⟩
  obtain ⟨mode, boundary, target⟩ := same
  exact Edit.legal_of_same mode boundary (by rw [target]; exact id) legal

theorem Edit.revert_state_ne_empty {s : State} {e : Edit} (legal : e.legal s) (notEmpty : s.state ≠ .EMPTY) :
    (e.revert s).state ≠ .EMPTY := by
  cases e with
  | state r => exact legal.1
  | _ => exact notEmpty

theorem forall_mem_pushEdit {P : Edit → Prop} {e : Edit} {log : List (List Edit)} (pushed : P e)
    (old : ∀ g ∈ log, ∀ f ∈ g, P f) : ∀ g ∈ pushEdit e log, ∀ f ∈ g, P f := by
  cases log with
  | nil => simpa [pushEdit] using pushed
  | cons g gs =>
    obtain ⟨newest, rest⟩ := List.forall_mem_cons.mp old
    exact List.forall_mem_cons.mpr ⟨List.forall_mem_cons.mpr ⟨pushed, newest⟩, rest⟩

namespace State.Inv

variable {s : State} (inv : s.Inv)
include inv

/-! ## What the invariant says of a value about to be logged -/

theorem read_valid (a : Nat) : VALID (Memory.read s.ram a) := by
  rcases Memory.read_cases s.ram a with zero | listed
  · rw [zero]
    decide
  · exact (inv.ramValid _ listed).2

theorem register_legal {i : Nat} (inRange : i < 16) : (Edit.register i (s.registers.getD i 0)).legal s := by
  refine ⟨inRange, inv.registersValid i inRange, ?_⟩
  rintro rfl
  exact inv.registerZero

theorem state_legal (notEmpty : s.state ≠ .EMPTY) : (Edit.state s.state).legal s := ⟨notEmpty, inv.waitingHasTarget⟩

/-! ## Reverse-applying a legal edit -/

theorem revert_register {i : Nat} {v : Int} (legal : (Edit.register i v).legal s) : ((Edit.register i v).revert s).Inv := by
  obtain ⟨inRange, valid, zero⟩ := legal
  refine { inv with registerZero := ?_, registersValid := fun j jInRange => ?_ }
  · simp only [Edit.revert, getD_setIfInBounds]
    split
    · next same => exact zero same.1
    · exact inv.registerZero
  · simp only [Edit.revert, getD_setIfInBounds]
    split
    · exact valid
    · exact inv.registersValid j jInRange

theorem revert_ram {a : Nat} {v : Int} (legal : (Edit.ram a v).legal s) : ((Edit.ram a v).revert s).Inv := by
  obtain ⟨inRange, valid, unprotected⟩ := legal
  refine { inv with
    ramCanonical := Memory.write_wf inv.ramCanonical a v
    ramValid := fun c listed => ?_
    codeUnsigned := fun safe b inCode => ?_ }
  · rcases Memory.mem_write listed with old | rfl
    · exact inv.ramValid c old
    · exact ⟨inRange, valid⟩
  · have other : b ≠ a := (Nat.lt_of_lt_of_le inCode (unprotected safe)).ne
    have kept : Memory.read (Memory.write s.ram a v) b = Memory.read s.ram b := Memory.read_write_other s.ram a v other
    exact (inv.codeUnsigned safe b inCode).trans_eq kept.symm

theorem revert {e : Edit} (legal : e.legal s) : (e.revert s).Inv := by
  cases e with
  | register i v => exact inv.revert_register legal
  | ram a v => exact inv.revert_ram legal
  | pc p => exact { inv with pcInRange := legal }
  | lastPc p => exact { inv with lastPcInRange := legal }
  | ir v => exact { inv with irValid := legal }
  | state r =>
    obtain ⟨notEmpty, waiting⟩ := legal
    exact { inv with waitingHasTarget := waiting, emptyHasNothing := fun empty => absurd empty notEmpty }

omit inv in
theorem revertGroup {g : List Edit} (inv : s.Inv) (legal : ∀ e ∈ g, e.legal s) : (revertGroup g s).Inv := by
  induction g generalizing s with
  | nil => exact inv
  | cons e g ih =>
    obtain ⟨first, rest⟩ := List.forall_mem_cons.mp legal
    exact ih (inv.revert first) fun f isIn => Edit.legal_revert e (rest f isIn)

theorem stepBackward : s.stepBackward.Inv := by
  unfold State.stepBackward State.popMark
  split
  · exact inv
  · next g gs logged =>
    have legal : ∀ h ∈ g :: gs, ∀ e ∈ h, Edit.legal s e := logged ▸ inv.logLegal
    obtain ⟨newest, older⟩ := List.forall_mem_cons.mp legal
    have reverted := inv.revertGroup newest
    obtain ⟨boundary, mode, target, -, -, log⟩ := revertGroup_keeps g s
    refine { reverted with emptyHasNothing := fun empty => ?_, logLegal := fun h isIn e inGroup => ?_ }
    · have noLog := (reverted.emptyHasNothing empty).2
      rw [log, logged] at noLog
      cases noLog
    · exact Edit.legal_of_same mode boundary (by rw [target]; exact id) (older h isIn e inGroup)

/-! ## The logged updates -/

theorem openMark (notEmpty : s.state ≠ .EMPTY) : s.openMark.Inv :=
  { inv with
    emptyHasNothing := fun empty => absurd empty notEmpty
    logLegal := List.forall_mem_cons.mpr ⟨fun _ isIn => absurd isIn List.not_mem_nil, inv.logLegal⟩ }

/-- `s` after an update to what `new` holds, logged as `old`. -/
theorem logged {new old : Edit} (newLegal : new.legal s) (oldLegal : old.legal s) (notEmpty : s.state ≠ .EMPTY) :
    State.Inv { new.revert s with undoLog := pushEdit old s.undoLog } :=
  { inv.revert newLegal with
    emptyHasNothing := fun empty => absurd empty (Edit.revert_state_ne_empty newLegal notEmpty)
    logLegal := forall_mem_pushEdit (Edit.legal_revert new oldLegal)
      fun g isIn e inGroup => Edit.legal_revert new (inv.logLegal g isIn e inGroup) }

theorem putRegister {i : Nat} {v : Int} (nonzero : i ≠ 0) (inRange : i < 16) (valid : VALID v) (notEmpty : s.state ≠ .EMPTY) :
    (s.putRegister i v).Inv :=
  inv.logged (new := .register i v) ⟨inRange, valid, fun zero => absurd zero nonzero⟩ (inv.register_legal inRange) notEmpty

theorem putRam {a : Nat} {v : Int} (inRange : a < 256) (valid : VALID v)
    (unprotected : s.mode = .SAFE → s.codeSegmentBoundary ≤ a) (notEmpty : s.state ≠ .EMPTY) : (s.putRam a v).Inv :=
  inv.logged (new := .ram a v) ⟨inRange, valid, unprotected⟩ ⟨inRange, inv.read_valid a, unprotected⟩ notEmpty

theorem putPc {n : Nat} (inRange : n < 256) (notEmpty : s.state ≠ .EMPTY) : (s.putPc n).Inv :=
  inv.logged (new := .pc n) inRange inv.pcInRange notEmpty

theorem putLastPc {n : Nat} (inRange : n < 256) (notEmpty : s.state ≠ .EMPTY) : (s.putLastPc n).Inv :=
  inv.logged (new := .lastPc n) inRange inv.lastPcInRange notEmpty

theorem putIr {v : Int} (valid : VALID v) (notEmpty : s.state ≠ .EMPTY) : (s.putIr v).Inv :=
  inv.logged (new := .ir v) valid inv.irValid notEmpty

theorem putState {r : RunState} (rNotEmpty : r ≠ .EMPTY) (waiting : r = .WAIT → s.readTarget.isSome = true)
    (notEmpty : s.state ≠ .EMPTY) : (s.putState r).Inv :=
  inv.logged (new := .state r) ⟨rNotEmpty, waiting⟩ (inv.state_legal notEmpty) notEmpty

/-! ## The updates that are not logged -/

theorem putReadTarget {i : Nat} (inRange : i < 16) : (s.putReadTarget i).Inv :=
  { inv with
    targetInRange := fun _ captured => Option.some.inj captured ▸ inRange
    waitingHasTarget := fun _ => rfl
    logLegal := fun g isIn e inGroup =>
      Edit.legal_of_same (s := s) (t := s.putReadTarget i) rfl rfl (fun _ => rfl) (inv.logLegal g isIn e inGroup) }

/-- The invariant does not speak of the event streams. -/
theorem withEvents (output : List Int) (errors : List Fault) : State.Inv { s with output, errors } := { inv with }

end State.Inv

end Sys2Proof.Machine
end

section
/-! The invariant over a step (R42): the cycle and fault entry as logged updates, then the effects of the Operations. -/

namespace Sys2Proof.Machine

theorem RunState.ne_empty_of_isActive {r : RunState} (active : r.isActive = true) : r ≠ .EMPTY := by
  rintro rfl
  cases active

section
variable {s : State} (inv : s.Inv)
include inv

theorem State.Inv.fetched (active : s.state.isActive = true) (below : s.pc < 255) : s.fetched.Inv := by
  have notEmpty := RunState.ne_empty_of_isActive active
  have entered : s.enterStep.Inv := (inv.openMark notEmpty).putState (by decide) nofun notEmpty
  have fetched := entered.putIr (inv.read_valid s.pc) nofun
  exact (fetched.putLastPc inv.pcInRange nofun).putPc (Nat.succ_lt_succ below) nofun

theorem State.Inv.afterFault (notEmpty : s.state ≠ .EMPTY) (k : Fault) : (s.afterFault k).Inv :=
  ((inv.openMark notEmpty).putState (r := .ERROR) (by decide) nofun notEmpty).withEvents s.output (s.errors ++ [k])

theorem Effect.keeps_inv {i : Instr} {t : State} (effect : Effect i s t) (notEmpty : s.state ≠ .EMPTY)
    (operandInRange : ∀ x, i = .read x → x < 16) : t.Inv := by
  cases effect with
  | halts _ inRange => exact (inv.putState (r := .HALT) (by decide) nofun notEmpty).putPc inRange nofun
  | waits x isRead => exact (inv.putReadTarget (operandInRange x isRead)).putState (by decide) (fun _ => rfl) notEmpty
  | emits x => exact inv.withEvents _ s.errors
  | nothing => exact inv
  | writesRegister x v _ nonzero inRange valid => exact inv.putRegister nonzero inRange valid notEmpty
  | stores a v _ _ inRange valid unprotected => exact inv.putRam inRange valid unprotected notEmpty
  | jumps n _ _ _ _ _ accepted => exact inv.putPc (Int.ofNat_lt.mp accepted.2.1) notEmpty
  | calls x n _ nonzero inRange valid accepted =>
    exact (inv.putRegister nonzero inRange valid notEmpty).putPc (Int.ofNat_lt.mp accepted.2.1) notEmpty

end

/-- Settles O48: a refused step changes nothing, a fault is logged as an update is, and an effect starts from the fetched state. -/
theorem stepKeepsTheInvariant : Obligations.StepKeepsTheInvariant := by
  intro s t inv stepped
  rcases step_cases stepped with ⟨-, rfl⟩ | ⟨active, k, rfl⟩ | ⟨active, i, dispatched, effect⟩
  · exact inv
  · exact inv.afterFault (RunState.ne_empty_of_isActive active) k
  · obtain ⟨-, -, below, decodes, -⟩ := prepare_run dispatched
    refine effect.keeps_inv (inv.fetched active below) nofun ?_
    rintro x rfl
    exact decodeWith_register_lt decodes (List.mem_singleton_self _)

end Sys2Proof.Machine
end

section
/-! The states a load and the resets leave (R231, R232, R235, R236): everything as at creation but for memory, boundary, run state, mode
and the event streams. -/

namespace Sys2Proof.Machine

theorem reset_registers_getD (i : Nat) : State.reset.registers.getD i 0 = 0 := by
  rw [getD_eq_getElem?, State.reset, Vector.getElem?_replicate]
  split <;> rfl

/-- A register file as at creation reads 0. -/
theorem reg_eq_zero_of_reset {s : State} (registers : s.registers = State.reset.registers) (i : Nat) : s.reg i = 0 := by
  rw [State.reg, registers, reset_registers_getD, ite_self]

/-- Settles O46: the values are those written in `State.reset`. -/
theorem resetIsTheCreationState : Obligations.ResetIsTheCreationState :=
  ⟨fun i _ => reg_eq_zero_of_reset rfl i, fun _ => rfl, rfl, rfl, rfl, rfl, rfl, rfl⟩

/-- Settles O47, clause by clause: at creation everything is 0 and nothing is listed or logged. -/
theorem invariantHoldsAtReset : Obligations.InvariantHoldsAtReset where
  registerZero := reset_registers_getD 0
  registersValid i _ := by
    rw [reset_registers_getD]
    decide
  ramCanonical := rfl
  ramValid _ listed := absurd listed List.not_mem_nil
  pcInRange := by decide
  lastPcInRange := by decide
  irValid := by decide
  boundaryInRange := Nat.zero_le 256
  codeUnsigned _ _ _ := le_refl 0
  targetInRange := nofun
  waitingHasTarget := nofun
  emptyHasNothing _ := ⟨rfl, rfl⟩
  logLegal _ isIn := absurd isIn List.not_mem_nil

/-- A memory, a boundary and a mode that the invariant admits together. -/
structure IsProgramMemory (mode : Mode) (ram : Memory) (boundary : Nat) : Prop where
  canonical : Memory.wf ram = true
  cellsValid : ∀ c ∈ ram, c.1 < 256 ∧ VALID c.2
  boundaryInRange : boundary ≤ 256
  codeUnsigned : mode = .SAFE → ∀ a, a < boundary → 0 ≤ Memory.read ram a

theorem inv_of_isProgramMemory {mode : Mode} {ram : Memory} {boundary : Nat} (program : IsProgramMemory mode ram boundary)
    {state : RunState} (notWaiting : state ≠ .WAIT) (empty : state = .EMPTY → boundary = 0) (output : List Int)
    (errors : List Fault) :
    State.Inv { State.reset with ram, codeSegmentBoundary := boundary, state, mode, output, errors } :=
  { invariantHoldsAtReset with
    ramCanonical := program.canonical
    ramValid := program.cellsValid
    boundaryInRange := program.boundaryInRange
    codeUnsigned := program.codeUnsigned
    waitingHasTarget := fun waiting => absurd waiting notWaiting
    emptyHasNothing := fun isEmpty => ⟨empty isEmpty, rfl⟩
    logLegal := fun _ isIn => absurd isIn List.not_mem_nil }

/-! ## The memory of each -/

theorem Memory.mem_ofWordsFrom {a : Nat} {ws : List Int} {c : Cell} (listed : c ∈ Memory.ofWordsFrom a ws) :
    c.1 < a + ws.length ∧ c.2 ∈ ws := by
  induction ws generalizing a with
  | nil => cases listed
  | cons v ws ih =>
    have later (rest : c ∈ Memory.ofWordsFrom (a + 1) ws) : c.1 < a + (v :: ws).length ∧ c.2 ∈ v :: ws := by
      obtain ⟨inRange, isWord⟩ := ih rest
      exact ⟨by rw [List.length_cons]; omega, List.mem_cons_of_mem v isWord⟩
    rw [Memory.ofWordsFrom] at listed
    split at listed
    · exact later listed
    · rcases List.mem_cons.mp listed with rfl | rest
      · exact ⟨by simp, List.mem_cons_self⟩
      · exact later rest

theorem Memory.read_ofWords (ws : List Int) (a : Nat) : Memory.read (Memory.ofWordsFrom 0 ws) a = ws.getD a 0 := by
  simpa using Memory.read_ofWordsFrom 0 ws a

theorem isProgramMemory_ofWords {ws : List Int} (mode : Mode) (fits : ws.length ≤ 256)
    (words : ∀ w ∈ ws, 0 ≤ w ∧ w ≤ 65534) : IsProgramMemory mode (Memory.ofWordsFrom 0 ws) ws.length where
  canonical := Memory.ofWordsFrom_wfFrom 0 ws
  cellsValid c listed := by
    obtain ⟨inRange, isWord⟩ := Memory.mem_ofWordsFrom listed
    obtain ⟨low, high⟩ := words c.2 isWord
    exact ⟨by omega, (valid_iff _).mpr ⟨by omega, high⟩⟩
  boundaryInRange := fits
  codeUnsigned _ a inCode := by
    rw [Memory.read_ofWords, List.getD_eq_getElem ws 0 inCode]
    exact (words _ (List.getElem_mem inCode)).1

theorem isProgramMemory_nil (mode : Mode) : IsProgramMemory mode [] 0 where
  canonical := rfl
  cellsValid _ listed := absurd listed List.not_mem_nil
  boundaryInRange := Nat.zero_le 256
  codeUnsigned _ _ _ := le_refl 0

theorem State.Inv.isProgramMemory_keepBelow {s : State} (inv : s.Inv) :
    IsProgramMemory s.mode (Memory.keepBelow s.codeSegmentBoundary s.ram) s.codeSegmentBoundary where
  canonical := Memory.keepBelow_wf s.codeSegmentBoundary inv.ramCanonical
  cellsValid c listed := inv.ramValid c (List.mem_of_mem_filter listed)
  boundaryInRange := inv.boundaryInRange
  codeUnsigned safe a inCode := by
    rw [Memory.read_keepBelow, if_pos inCode]
    exact inv.codeUnsigned safe a inCode

end Sys2Proof.Machine
end

section
/-! The invariant over the other host calls (R12), and over every state they and the steps reach. -/

namespace Sys2Proof.Machine

theorem loadBinary_refused {text : String} (refused : parseImage text = none) (s : State) :
    loadBinary text s = (.refused, s) := by
  simp only [loadBinary, refused]

theorem loadBinary_accepted {text : String} {ws : List Int} (accepted : parseImage text = some ws) (s : State) :
    loadBinary text s = (.accepted, s.loadWords ws) := by
  simp only [loadBinary, accepted]

theorem resetMachine_clear (s : State) : resetMachine true s = (.accepted, s.clearAll) := rfl

theorem resetMachine_empty {s : State} (empty : s.state = .EMPTY) : resetMachine false s = (.refused, s) := if_pos empty

theorem resetMachine_restart {s : State} (notEmpty : s.state ≠ .EMPTY) : resetMachine false s = (.accepted, s.restart) :=
  if_neg notEmpty

section
variable {s : State} (inv : s.Inv)
include inv

theorem State.Inv.loadBinary (text : String) : (loadBinary text s).2.Inv := by
  cases parsed : parseImage text with
  | none => rwa [loadBinary_refused parsed]
  | some ws =>
    obtain ⟨-, loadable, -⟩ := imageTextIsParsedBack
    obtain ⟨fits, words⟩ := loadable text ws parsed
    rw [loadBinary_accepted parsed]
    exact inv_of_isProgramMemory (state := .READY) (isProgramMemory_ofWords s.mode fits words) (by decide) nofun s.output
      s.errors

theorem State.Inv.resetMachine (clearProgram : Bool) : (resetMachine clearProgram s).2.Inv := by
  cases clearProgram with
  | true => exact inv_of_isProgramMemory (isProgramMemory_nil s.mode) (by decide) (fun _ => rfl) s.output s.errors
  | false =>
    by_cases empty : s.state = .EMPTY
    · rwa [resetMachine_empty empty]
    · rw [resetMachine_restart empty]
      exact inv_of_isProgramMemory (state := .READY) inv.isProgramMemory_keepBelow (by decide) nofun s.output s.errors

theorem State.Inv.withInput {r : Nat} {v : Int} (inRange : r < 16) (valid : VALID v) (notEmpty : s.state ≠ .EMPTY) :
    (s.withInput r v).Inv := by
  have opened := inv.openMark notEmpty
  unfold State.withInput
  split
  · exact opened.putState (by decide) nofun notEmpty
  · next nonzero => exact (opened.putRegister nonzero inRange valid notEmpty).putState (by decide) nofun notEmpty

theorem State.Inv.acceptInput {r : Nat} (inRange : r < 16) (v : Int) (notEmpty : s.state ≠ .EMPTY) :
    (s.acceptInput r v).2.Inv := by
  by_cases valid : VALID v
  · rw [acceptInput_valid s inRange valid]
    exact inv.withInput inRange valid notEmpty
  · rw [acceptInput_invalid s inRange valid]
    exact inv.afterFault notEmpty _

theorem State.Inv.readInput (text : String) : (readInput text s).2.Inv := by
  by_cases waiting : s.state = .WAIT
  · obtain ⟨r, target⟩ := Option.isSome_iff_exists.mp (inv.waitingHasTarget waiting)
    cases literal : parseLiteral text.toList with
    | none => rwa [readInput_noLiteral waiting literal]
    | some v =>
      rw [readInput_literal waiting target literal]
      exact inv.acceptInput (inv.targetInRange r target) v (by simp [waiting])
  · rwa [readInput_notWaiting waiting]

end

/-- Settles O49, call by call. -/
theorem hostCallsKeepTheInvariant : Obligations.HostCallsKeepTheInvariant := by
  intro s c notStep inv
  cases c with
  | runNextInstruction => exact absurd rfl notStep
  | loadBinary text => exact inv.loadBinary text
  | resetMachine clearProgram => exact inv.resetMachine clearProgram
  | readInput text => exact inv.readInput text
  | stepBackward => exact inv.stepBackward

/-- Settles O37: a step is a refused call, a fault of the cycle, or an Operation, and each ends in a next state. -/
theorem stepAlwaysAnswersANextState : Obligations.StepAlwaysAnswersANextState := by
  intro s
  cases prepared : prepare s with
  | done t => exact ⟨t, step_done prepared⟩
  | run i u =>
    obtain ⟨r, outcome, -⟩ := exec_outcome i u
    exact ⟨u.commit r, (step_run prepared).trans outcome⟩

theorem step_afterCall (s : State) : step s = .next (s.afterCall .runNextInstruction) := by
  obtain ⟨t, stepped⟩ := stepAlwaysAnswersANextState s
  simp only [State.afterCall, stepped]

theorem State.Inv.afterCall {s : State} (inv : s.Inv) (c : HostCall) : (s.afterCall c).Inv := by
  by_cases isStep : c = .runNextInstruction
  · subst isStep
    exact stepKeepsTheInvariant s _ inv (step_afterCall s)
  · exact hostCallsKeepTheInvariant s c isStep inv

/-- Settles O50, by induction on the calls: a new machine of either mode is `State.reset` with an empty program memory. -/
theorem reachableStatesMeetTheInvariant : Obligations.ReachableStatesMeetTheInvariant := by
  intro s reachable
  induction reachable with
  | created m => exact inv_of_isProgramMemory (isProgramMemory_nil m) (by decide) (fun _ => rfl) [] []
  | call c s _ inv => exact inv.afterCall c

/-- Settles O51: the slot by the invariant, the read by `State.reg`, the write by the setter's last test. -/
theorem registerZeroIsHardWired : Obligations.RegisterZeroIsHardWired :=
  ⟨fun s reachable => (reachableStatesMeetTheInvariant s reachable).registerZero, fun _ => rfl,
    fun s _ => setReg_valid (n := 0) s (by decide)⟩

/-- Settles O52: in the reachable states by the invariant, at dispatch by the state the Operation starts from. -/
theorem programCounterStaysInRange : Obligations.ProgramCounterStaysInRange := by
  refine ⟨fun s reachable => (reachableStatesMeetTheInvariant s reachable).pcInRange, fun s u i dispatched => ?_⟩
  obtain ⟨-, -, below, -, rfl⟩ := prepare_run dispatched
  exact ⟨rfl, rfl, Nat.succ_lt_succ below⟩

end Sys2Proof.Machine
end

section
/-! What an input leaves (R143, R221), said once by cases; stepping backward across it (R219, D23). -/

namespace Sys2Proof.Machine

theorem acceptInput_cases (r : Nat) (v : Int) (s : State) :
    (∃ k, s.acceptInput r v = (.faulted k, s.afterFault k)) ∨ s.acceptInput r v = (.accepted, s.withInput r v) := by
  by_cases inRange : r < 16
  · by_cases valid : VALID v
    · exact .inr (acceptInput_valid s inRange valid)
    · exact .inl ⟨_, acceptInput_invalid s inRange valid⟩
  · have faults : setReg r v s.openMark = .error (.invalidRegister r) := setReg_bad v s.openMark (by omega)
    refine .inl ⟨.invalidRegister r, ?_⟩
    unfold State.acceptInput
    simp only [faults, takeFault_openMark]

/-- Everything `readInput` can do: leave the state as it is, fault, or write the captured register. -/
theorem readInput_cases (text : String) (s : State) :
    (∃ reply, reply ≠ .accepted ∧ readInput text s = (reply, s)) ∨ (∃ k, readInput text s = (.faulted k, s.afterFault k))
      ∨ ∃ r v, readInput text s = (.accepted, s.withInput r v) := by
  unfold readInput
  split
  · split
    · exact .inl ⟨.validationFailure, nofun, rfl⟩
    · exact .inl ⟨.refused, nofun, rfl⟩
    · next v r _ _ => exact .inr ((acceptInput_cases r v s).imp_right fun accepted => ⟨r, v, accepted⟩)
  · exact .inl ⟨.refused, nofun, rfl⟩

theorem stepBackward_openMark (s : State) : s.openMark.stepBackward = s := rfl

theorem stepBackward_withInput (r : Nat) (v : Int) (s : State) : (s.withInput r v).stepBackward = s := by
  have isOpen : s.openMark.undoLog ≠ [] := List.cons_ne_nil _ _
  unfold State.withInput
  split
  · rw [stepBackward_putState isOpen, stepBackward_openMark]
  · rw [stepBackward_putState (by simp), stepBackward_putRegister isOpen, stepBackward_openMark]

theorem stepBackward_of_undoLog_eq_nil {s : State} (noLog : s.undoLog = []) : s.stepBackward = s := by
  rw [State.stepBackward, State.popMark, noLog]

/-- Settles O54: of the three things `readInput` can do only the write answers `accepted`. -/
theorem stepBackwardUndoesAnInput : Obligations.StepBackwardUndoesAnInput := by
  refine ⟨fun s text accepted => ?_, fun _ => stepBackward_of_undoLog_eq_nil⟩
  rcases readInput_cases text s with ⟨reply, notAccepted, answers⟩ | ⟨k, answers⟩ | ⟨r, v, answers⟩
  · rw [answers] at accepted
    exact absurd accepted notAccepted
  · rw [answers] at accepted
    cases accepted
  · rw [answers]
    exact stepBackward_withInput r v s

end Sys2Proof.Machine
end

section
/-! The code segment boundary (R34): the calls that keep it. -/

namespace Sys2Proof.Machine

theorem Effect.boundary_eq {i : Instr} {s t : State} (effect : Effect i s t) :
    t.codeSegmentBoundary = s.codeSegmentBoundary := by cases effect <;> rfl

theorem step_boundary {s t : State} (stepped : step s = .next t) : t.codeSegmentBoundary = s.codeSegmentBoundary := by
  rcases step_cases stepped with ⟨-, rfl⟩ | ⟨-, k, rfl⟩ | ⟨-, i, -, effect⟩
  · rfl
  · rfl
  · exact effect.boundary_eq

theorem stepBackward_boundary (s : State) : s.stepBackward.codeSegmentBoundary = s.codeSegmentBoundary := by
  unfold State.stepBackward State.popMark
  split
  · rfl
  · next g _ _ => exact (revertGroup_keeps g s).1

theorem readInput_boundary (text : String) (s : State) :
    (readInput text s).2.codeSegmentBoundary = s.codeSegmentBoundary := by
  rcases readInput_cases text s with ⟨reply, -, answers⟩ | ⟨k, answers⟩ | ⟨r, v, answers⟩
  · rw [answers]
  · rw [answers]
    rfl
  · obtain ⟨registers, undoLog, frame⟩ := s.withInput_frame r v
    rw [answers, frame]

/-- In EMPTY the reset does nothing, and elsewhere it keeps the boundary with the code cells (R236, D14). -/
theorem resetMachine_false_boundary (s : State) :
    (resetMachine false s).2.codeSegmentBoundary = s.codeSegmentBoundary := by
  by_cases empty : s.state = .EMPTY
  · rw [resetMachine_empty empty]
  · rw [resetMachine_restart empty]
    rfl

/-- Settles O44, call by call. -/
theorem boundaryChangesOnlyOnLoadAndReset : Obligations.BoundaryChangesOnlyOnLoadAndReset := by
  intro s
  refine ⟨step_boundary (step_afterCall s), fun text => readInput_boundary text s, stepBackward_boundary s,
    resetMachine_false_boundary s, rfl, fun text ws accepted => ?_, fun text refused => ?_⟩
  · exact congrArg (fun answer => answer.2.codeSegmentBoundary) (loadBinary_accepted accepted s)
  · exact congrArg (fun answer => answer.2.codeSegmentBoundary) (loadBinary_refused refused s)

end Sys2Proof.Machine
end

section
/-! What a load and the resets install (R232, R235, R236). -/

namespace Sys2Proof.Machine

/-- Settles O55: the image by the law of `Memory.ofWordsFrom`, every other field as at creation. -/
theorem loadInstallsTheImage : Obligations.LoadInstallsTheImage := by
  refine fun text s => ⟨fun refused => loadBinary_refused refused s, fun ws accepted => ?_⟩
  have beyond (a : Nat) (past : ws.length ≤ a) : Memory.read (s.loadWords ws).ram a = 0 :=
    (Memory.read_ofWords ws a).trans (List.getD_eq_default ws 0 past)
  exact ⟨s.loadWords ws, loadBinary_accepted accepted s, fun a _ => Memory.read_ofWords ws a, beyond,
    fun i _ => reg_eq_zero_of_reset rfl i, rfl, rfl, rfl, rfl, rfl, rfl, rfl, rfl⟩

/-- Settles O57: memory by the law of `Memory.keepBelow`, every other field as at creation. -/
theorem resetsClearWhatTheySay : Obligations.ResetsClearWhatTheySay := by
  refine fun s => ⟨?_, resetMachine_empty, fun notEmpty => ?_⟩
  · exact ⟨s.clearAll, resetMachine_clear s, fun _ => rfl, fun i _ => reg_eq_zero_of_reset rfl i, rfl, rfl, rfl, rfl, rfl, rfl,
      rfl, rfl⟩
  · have code (a : Nat) (inCode : a < s.codeSegmentBoundary) : Memory.read s.restart.ram a = Memory.read s.ram a :=
      (Memory.read_keepBelow s.codeSegmentBoundary s.ram a).trans (if_pos inCode)
    have data (a : Nat) (past : s.codeSegmentBoundary ≤ a) : Memory.read s.restart.ram a = 0 :=
      (Memory.read_keepBelow s.codeSegmentBoundary s.ram a).trans (if_neg past.not_gt)
    exact ⟨s.restart, resetMachine_restart notEmpty, code, data, fun i _ => reg_eq_zero_of_reset rfl i, rfl, rfl, rfl, rfl, rfl,
      rfl, rfl, rfl⟩

/-- The word 65535 is placed as the cell -1, whose residue it is (R123, R234; log 9). -/
theorem u16_placed_cell (w : Nat) : u16 (if w = 65535 then -1 else (w : Int)) = BitVec.ofNat Config.WORD_BITS w := by
  split
  · next isLast =>
    subst isLast
    rfl
  · exact BitVec.ofInt_natCast Config.WORD_BITS w

/-- Settles O60: after reset the placed cell is inside the code segment and has a successor, so the cycle dispatches what it
decodes to. -/
theorem placedWordRunsNext : Obligations.PlacedWordRunsNext := by
  intro w i isWord decodes
  have placed : State.reset.withFetchWord 16 w = State.reset.holdFetchWord w := by
    rw [State.withFetchWord, Nat.mod_eq_of_lt (show w < 2 ^ 16 from isWord), Nat.mod_eq_of_lt isWord]
  have cell : Memory.read (State.reset.holdFetchWord w).ram 0 = if w = 65535 then -1 else (w : Int) :=
    Memory.read_write_same (lo := 0) (m := []) rfl 0 _
  have fetched : decode (u16 (Memory.read (State.reset.holdFetchWord w).ram 0)) = .ok i := by
    rw [cell, u16_placed_cell w]
    exact decodes
  have dispatched : prepare (State.reset.holdFetchWord w) = .run i (State.reset.holdFetchWord w).fetched :=
    prepare_of_decode rfl (fun _ => Nat.one_pos) (show 0 < 255 by decide) fetched
  rw [placed]
  exact ⟨_, dispatched, step_run dispatched, rfl, rfl, fun j _ => reg_eq_zero_of_reset rfl j⟩

end Sys2Proof.Machine
end

section
/-! The register-writing instructions (R150, R151, R153, R155, R160 to R168): each is the guarded write of its value, and what such a
write leaves is said once. -/

namespace Sys2Proof.Machine

theorem reg_putRegister_other {x j : Nat} (v : Int) (s : State) (other : j ≠ x) : (s.putRegister x v).reg j = s.reg j := by
  rw [reg_putRegister, if_neg (fun same : x = j ∧ x < 16 => other same.1.symm), ite_eq_right_iff]
  rintro rfl
  exact (reg_zero s).symm

/-- An Operation that is the guarded write of a valid value does that and nothing else (R25). -/
theorem writesOnlyRegister_of_exec {i : Instr} {s : State} {x : Nat} {v : Int} (writes : exec i s = finish s (destReg x v s))
    (inRange : x < 16) (valid : VALID v) : WritesOnlyRegister i s x v := by
  rw [destReg_valid s inRange valid, finish_ok] at writes
  by_cases zero : x = 0
  · subst zero
    exact ⟨_, writes, reg_zero s, fun _ _ _ => rfl, fun _ => rfl, rfl, rfl, rfl, rfl, rfl, rfl, rfl, rfl, rfl⟩
  · rw [if_neg zero] at writes
    have written : (s.putRegister x v).reg x = if x = 0 then 0 else v := by
      rw [reg_putRegister, if_pos (And.intro rfl inRange)]
    exact ⟨_, writes, written, fun _ _ => reg_putRegister_other v s, fun _ => rfl, rfl, rfl, rfl, rfl, rfl, rfl, rfl, rfl,
      rfl⟩

theorem exec_setn (x : Nat) (n : Int) (s : State) : exec (.setn x n) s = finish s (destReg x n s) := rfl

theorem exec_copy {y : Nat} (x : Nat) (s : State) (yInRange : y < 16) :
    exec (.copy x y) s = finish s (destReg x (s.reg y) s) :=
  congrArg (fun source => finish s (source >>= fun v => destReg x v s)) (sourceReg_nat s yInRange)

/-- Settles O18: a signed immediate is always valid. -/
theorem setnAndCopyWriteTheirValue : Obligations.SetnAndCopyWriteTheirValue := by
  intro s x inRange
  constructor
  · intro n low high
    exact writesOnlyRegister_of_exec (exec_setn x n s) inRange ((valid_iff n).mpr ⟨by omega, by omega⟩)
  · intro y yInRange valid
    exact writesOnlyRegister_of_exec (exec_copy x s yInRange) inRange valid

/-! ## The loads -/

/-- `i` loads register `x` from address `a`, by either of the two address forms (R151, R153, R156). -/
def LoadsFrom (s : State) (i : Instr) (x : Nat) (a : Int) : Prop :=
  (∃ n : Nat, n < 256 ∧ i = .loadn x n ∧ a = n) ∨ (∃ y, y < 16 ∧ i = .loadr x y ∧ a = s.reg y)

theorem exec_of_loadsFrom {s : State} {i : Instr} {x : Nat} {a : Int} (loads : LoadsFrom s i x a) :
    exec i s = finish s (memRead a s >>= fun v => destReg x v s) := by
  rcases loads with ⟨n, -, rfl, rfl⟩ | ⟨y, yInRange, rfl, rfl⟩
  · rfl
  · exact congrArg (fun source => finish s (source >>= fun a => memRead a s >>= fun v => destReg x v s))
      (sourceReg_nat s yInRange)

/-- Settles O19: once the address is computed, a load is the guarded read and then the guarded write. -/
theorem loadsReadTheCell : Obligations.LoadsReadTheCell := by
  intro s x i a xInRange loads
  have meaning := exec_of_loadsFrom (s := s) loads
  constructor
  · rintro n rfl inRange valid
    rw [memRead_nat s inRange] at meaning
    exact writesOnlyRegister_of_exec meaning xInRange valid
  · intro outside
    rw [meaning, memRead_bad s outside]
    rfl

/-! ## Arithmetic -/

/-- Settles O21: the five operations are among those of the arithmetic law. -/
theorem arithmeticStoresTheExactResult : Obligations.ArithmeticStoresTheExactResult := by
  intro s x y z xInRange yInRange zInRange i v computes
  have meaning : exec i s = finish s (destReg x v s) := by
    rcases computes with ⟨n, -, -, rfl, rfl⟩ | ⟨rfl, rfl⟩ | ⟨rfl, rfl⟩ | ⟨rfl, rfl⟩ | ⟨rfl, rfl⟩
    · exact exec_addn s xInRange n
    · exact exec_add s yInRange zInRange
    · exact exec_sub s yInRange zInRange
    · exact exec_mul s yInRange zInRange
    · exact exec_neg s yInRange
  exact ⟨writesOnlyRegister_of_exec meaning xInRange,
    fun invalid => meaning.trans (finish_destReg_invalid s xInRange invalid)⟩

/-- Settles O22: the divisor test, then the guarded write of the quotient. -/
theorem divTruncatesTowardZero : Obligations.DivTruncatesTowardZero := by
  intro s x y z xInRange yInRange zInRange
  refine ⟨fun zero => ?_, fun nonzero => ?_, fun nonzero invalid => ?_⟩
  · exact congrArg (finish s) (threeRegister_divisorTested_zero s yInRange zInRange zero tdiv)
  · exact writesOnlyRegister_of_exec (exec_div s yInRange zInRange nonzero) xInRange
  · exact (exec_div s yInRange zInRange nonzero).trans (finish_destReg_invalid s xInRange invalid)

theorem tmod_natAbs (a b : Int) : (tmod a b).natAbs = a.natAbs % b.natAbs := by rw [tmod_eq_int_tmod, Int.natAbs_tmod]

/-- The remainder is 0 or has the sign of the dividend (R167, D11). -/
theorem tmod_sign_cases (a b : Int) : tmod a b = 0 ∨ (0 < a ∧ 0 < tmod a b) ∨ (a < 0 ∧ tmod a b < 0) := by
  rcases (tmod_mul_nonneg a b).eq_or_lt with zero | positive
  · rcases mul_eq_zero.mp zero.symm with remainder | rfl
    · exact .inl remainder
    · exact .inl (by rw [tmod_eq_int_tmod, Int.zero_tmod])
  · exact .inr ((mul_pos_iff.mp positive).imp And.symm And.symm)

/-- The remainder lies between 0 and the dividend, so it needs no range test of its own (R166). -/
theorem tmod_valid {a : Int} (b : Int) (valid : VALID a) : VALID (tmod a b) := by
  have size : (tmod a b).natAbs ≤ a.natAbs := tmod_natAbs a b ▸ Nat.mod_le a.natAbs b.natAbs
  rw [valid_iff] at valid ⊢
  rcases tmod_sign_cases a b with zero | ⟨_, _⟩ | ⟨_, _⟩ <;> omega

/-- Settles O23: the divisor test, then the guarded write of the remainder, which is valid. -/
theorem modStoresTheTruncatedRemainder : Obligations.ModStoresTheTruncatedRemainder := by
  intro s x y z xInRange yInRange zInRange
  refine ⟨fun zero => ?_, fun nonzero valid => ?_⟩
  · exact congrArg (finish s) (threeRegister_divisorTested_zero s yInRange zInRange zero tmod)
  · exact writesOnlyRegister_of_exec (exec_mod s yInRange zInRange nonzero) xInRange (tmod_valid _ valid)

/-- Settles O24: the sum by the definition of the remainder, its size by that of natural numbers. -/
theorem quotientAndRemainderFitTogether : Obligations.QuotientAndRemainderFitTogether := by
  intro a b nonzero
  have sum : a = b * tdiv a b + tmod a b := by
    rw [tmod]
    omega
  have small : (tmod a b).natAbs < b.natAbs := tmod_natAbs a b ▸ Nat.mod_lt a.natAbs (Int.natAbs_pos.mpr nonzero)
  exact ⟨sum, small, tmod_sign_cases a b⟩

end Sys2Proof.Machine
end

section
/-! The stores (R152, R154): once the address is computed, the guarded memory write of the register's value. -/

namespace Sys2Proof.Machine

/-- `i` stores register `x` at address `a`, by either of the two address forms (R152, R154, R156). -/
def StoresTo (s : State) (i : Instr) (x : Nat) (a : Int) : Prop :=
  (∃ n : Nat, n < 256 ∧ i = .storen x n ∧ a = n) ∨ (∃ y, y < 16 ∧ i = .storer x y ∧ a = s.reg y)

theorem exec_of_storesTo {s : State} {i : Instr} {x : Nat} {a : Int} (stores : StoresTo s i x a) (xInRange : x < 16) :
    exec i s = finish s (memWrite a (s.reg x) s) := by
  have data : sourceReg x s = .ok (s.reg x) := sourceReg_nat s xInRange
  rcases stores with ⟨n, -, rfl, rfl⟩ | ⟨y, yInRange, rfl, rfl⟩
  · simp only [exec, execStoren, data, bind, Except.bind, absoluteAddress]
  · have address : indirectAddress y s = .ok (s.reg y) := sourceReg_nat s yInRange
    simp only [exec, execStorer, address, data, bind, Except.bind]

/-- Settles O20: each outcome by the equation of the guarded memory write. -/
theorem storesWriteTheCell : Obligations.StoresWriteTheCell := by
  intro s x i a xInRange valid canonical stores
  have meaning := exec_of_storesTo (s := s) stores xInRange
  refine ⟨?_, fun outside => ?_, fun low high safe inCode => ?_⟩
  · rintro n rfl inRange unprotected
    rw [memWrite_free s inRange valid unprotected, finish_ok] at meaning
    exact ⟨_, meaning, Memory.read_write_same canonical n _, fun _ => Memory.read_write_other s.ram n _, fun _ _ => rfl,
      rfl, rfl, rfl, rfl, rfl, rfl, rfl, rfl, rfl⟩
  · rw [meaning, memWrite_bad _ s outside, finish_error]
  · rw [meaning, memWrite_protected s ⟨low, high⟩ valid safe inCode, finish_error]

end Sys2Proof.Machine
end

section
/-! The control-transfer instructions (R176 to R184), each by what the jump primitive makes of its target. -/

namespace Sys2Proof.Machine

section
variable {i : Instr} {s : State}

theorem jumpsOnly_of_exec {n : Nat} (meaning : exec i s = finish s (jump n s)) (accepted : s.targetOk n) : JumpsOnly i s n := by
  rw [jump_target accepted, finish_ok] at meaning
  exact ⟨_, meaning, rfl, fun _ _ => rfl, fun _ => rfl, rfl, rfl, rfl, rfl, rfl, rfl, rfl, rfl⟩

theorem exec_of_rejected {t : Int} (meaning : exec i s = finish s (jump t s)) (rejected : ¬ s.targetOk t) :
    exec i s = .next (s.takeFault (.invalidJumpTarget t)) := by
  rw [meaning, jump_bad rejected, finish_error]

end

/-- Settles O27: both jumps are the jump primitive. -/
theorem jumpsGoToTheirTarget : Obligations.JumpsGoToTheirTarget := by
  intro s i t jumps
  have meaning : exec i s = finish s (jump t s) := by
    rcases jumps with ⟨x, inRange, rfl, rfl⟩ | ⟨n, -, rfl, rfl⟩
    · exact exec_jumpr s inRange
    · exact exec_jumpn n s
  refine ⟨?_, exec_of_rejected meaning⟩
  rintro n rfl
  exact jumpsOnly_of_exec meaning

/-- The state an accepted call leaves: the link as a register write, then the jump (R180). -/
theorem exec_calln_accepted {x n : Nat} {s : State} (inRange : x < 16) (valid : VALID (s.pc : Int)) (accepted : s.targetOk n) :
    exec (.calln x n) s = .next ((if x = 0 then s else s.putRegister x s.pc).putPc n) := by
  have alsoAccepted : (if x = 0 then s else s.putRegister x s.pc).targetOk n := by split <;> exact accepted
  rw [exec_calln s inRange n valid, jump_target alsoAccepted, finish_ok]

/-- Settles O28: the link by the frame of a register write; a rejected target is that of a taken jump. -/
theorem callnLinksAndJumps : Obligations.CallnLinksAndJumps := by
  intro s x n inRange _ pcInRange
  have linkValid : VALID (s.pc : Int) := (valid_iff _).mpr (by omega)
  refine ⟨fun accepted => ?_, exec_of_jump_rejected (.inr (.inr (.inl ⟨rfl, rfl⟩))) inRange linkValid⟩
  have meaning := exec_calln_accepted inRange linkValid accepted
  obtain ⟨u, written, result, others, memory, -, state, target, output, control⟩ :=
    writesOnlyRegister_of_exec (exec_setn x s.pc s) inRange linkValid
  rw [exec_setn, destReg_valid s inRange linkValid, finish_ok] at written
  cases written
  exact ⟨_, meaning, rfl, result, others, memory, state, target, output, control⟩

/-! ## The conditional jumps -/

theorem finish_jumpIf_not_taken {c : Condition} {x : Nat} {s : State} (n : Nat) (inRange : x < 16)
    (fails : ¬ c.holds (s.reg x) = true) : finish s (jumpIf c x n s) = .next s := by
  rw [jumpIf, sourceReg_nat s inRange]
  exact congrArg (finish s) (if_neg fails)

/-- `i` is a conditional jump on register `x` to `n`, and from `s` it is taken exactly if `taken` (R181 to R184). -/
def IsConditionalJump (s : State) (i : Instr) (x n : Nat) (taken : Prop) : Prop :=
  (i = .jeqzn x n ∧ (taken ↔ s.reg x = 0)) ∨ (i = .jnezn x n ∧ (taken ↔ s.reg x ≠ 0))
    ∨ (i = .jgtzn x n ∧ (taken ↔ s.reg x > 0)) ∨ (i = .jltzn x n ∧ (taken ↔ s.reg x < 0))

/-- Each conditional jump is `jumpIf` of its condition (R181 to R184). -/
theorem exec_of_isConditionalJump {s : State} {x n : Nat} {i : Instr} {taken : Prop}
    (jumps : IsConditionalJump s i x n taken) :
    ∃ c : Condition, exec i s = finish s (jumpIf c x n s) ∧ (c.holds (s.reg x) = true ↔ taken) := by
  rcases jumps with ⟨rfl, condition⟩ | ⟨rfl, condition⟩ | ⟨rfl, condition⟩ | ⟨rfl, condition⟩
  · exact ⟨.eqz, rfl, decide_eq_true_iff.trans condition.symm⟩
  · exact ⟨.nez, rfl, decide_eq_true_iff.trans condition.symm⟩
  · exact ⟨.gtz, rfl, decide_eq_true_iff.trans condition.symm⟩
  · exact ⟨.ltz, rfl, decide_eq_true_iff.trans condition.symm⟩

/-- Settles O29: taken, a conditional jump is the jump primitive; not taken, its target is not looked at. -/
theorem conditionalJumpsTestTheRegister : Obligations.ConditionalJumpsTestTheRegister := by
  intro s x n inRange _ i taken jumps
  obtain ⟨c, meaning, holds⟩ := exec_of_isConditionalJump jumps
  have jumped (isTaken : taken) : exec i s = finish s (jump n s) :=
    meaning.trans (congrArg (finish s) (jumpIf_taken s inRange n (holds.mpr isTaken)))
  exact ⟨fun isTaken => jumpsOnly_of_exec (jumped isTaken), fun isTaken => exec_of_rejected (jumped isTaken),
    fun notTaken => meaning.trans (finish_jumpIf_not_taken n inRange (mt holds.mp notTaken))⟩

end Sys2Proof.Machine
end

section
/-! The system and input/output instructions (R140 to R145), the samples of the encoding, and the guarded register read (R24). -/

namespace Sys2Proof.Machine

theorem exec_halt {s : State} (inRange : s.lastPc < 256) : exec .halt s = .next ((s.putState .HALT).putPc s.lastPc) := by
  have moved : setPc (s.lastPc : Int) (s.putState .HALT) = .ok ((s.putState .HALT).putPc s.lastPc) := setPc_nat _ inRange
  rw [exec, execHalt, moved, finish_ok]

/-- Settles O14, by the equation of `halt`. -/
theorem haltStopsAtItsOwnAddress : Obligations.HaltStopsAtItsOwnAddress := fun _ inRange =>
  ⟨_, exec_halt inRange, rfl, rfl, fun _ _ => rfl, fun _ => rfl, rfl, rfl, rfl, rfl, rfl, rfl, rfl⟩

/-- Settles O15, by the equation of `read`. -/
theorem readCapturesItsRegisterAndWaits : Obligations.ReadCapturesItsRegisterAndWaits := fun s x =>
  ⟨_, exec_read x s, rfl, rfl, rfl, fun _ _ => rfl, fun _ => rfl, rfl, rfl, rfl, rfl, rfl, rfl⟩

/-- Settles O16: the source register, in range, reads without a fault. -/
theorem writeEmitsTheRegister : Obligations.WriteEmitsTheRegister := fun s _ inRange =>
  congrArg (fun source => finish s (source >>= fun v => .ok (s.emit v))) (sourceReg_nat s inRange)

/-- Settles O17: the word is that of the leading nibble 6 with the rest 0. -/
theorem nopHasNoEffect : Obligations.NopHasNoEffect := ⟨decode_leading6 0#4 0#4 0#4, fun _ => rfl⟩

/-- Settles O2: a closed fact about the 24 rows. -/
theorem languageTableIsWellFormed : Obligations.LanguageTableIsWellFormed := by
  unfold Obligations.LanguageTableIsWellFormed
  decide

/-- Settles O4: closed facts about 17 words. -/
theorem sampleWordsDecode : Obligations.SampleWordsDecode := by
  unfold Obligations.SampleWordsDecode
  decide

/-- Settles O9: the index test, and that no register operand of a decoded instruction fails it. -/
theorem guardedRegisterRead : Obligations.GuardedRegisterRead := by
  refine ⟨fun s _ => getReg_bad s, fun _ => rfl, fun s n inRange nonzero => ?_, fun w i r s decodes operand => ?_⟩
  · rw [getReg_nat s inRange, reg_of_ne nonzero, getD_eq_getElem?, Vector.getElem?_eq_getElem inRange]
    rfl
  · exact getReg_nat s (decodeWith_register_lt decodes operand)

end Sys2Proof.Machine
end

section
/-! What an Operation that completes leaves unchanged (R26, R53), by the cases of its effect, and the frames of whole steps. -/

namespace Sys2Proof.Machine

section
variable {i : Instr} {s t : State} (effect : Effect i s t)
include effect

/-- Only the destination register is written (R26). -/
theorem Effect.reg_eq {j : Nat} (notDestination : destination i ≠ some j) : t.reg j = s.reg j := by
  cases effect with
  | writesRegister x v writes =>
    refine reg_putRegister_other v s ?_
    rintro rfl
    exact notDestination writes
  | calls x n isCall =>
    refine reg_putRegister_other s.pc s ?_
    rintro rfl
    exact notDestination (congrArg destination isCall)
  | _ => rfl

/-- Only the cell at the stored address is written (R53). -/
theorem Effect.read_eq {b : Nat} (notStored : ∀ a, storedAddress i s = some a → (b : Int) ≠ a) :
    Memory.read t.ram b = Memory.read s.ram b := by
  cases effect with
  | stores a v _ address => exact Memory.read_write_other s.ram a v (fun same => notStored a address (congrArg Nat.cast same))
  | _ => rfl

theorem Effect.readTarget_cases : t.readTarget = s.readTarget ∨ ∃ x, i = .read x := by
  cases effect with
  | waits x isRead => exact .inr ⟨x, isRead⟩
  | _ => exact .inl rfl

theorem Effect.output_eq (notWrite : ∀ x, i ≠ .write x) : t.output = s.output := by
  rcases effect.output_cases with ⟨x, isWrite, -⟩ | ⟨-, kept⟩
  · exact absurd isWrite (notWrite x)
  · exact kept

theorem Effect.readTarget_eq (notRead : ∀ x, i ≠ .read x) : t.readTarget = s.readTarget := by
  rcases effect.readTarget_cases with kept | ⟨x, isRead⟩
  · exact kept
  · exact absurd isRead (notRead x)

/-- `halt` and `read` suspend the run; no other Operation touches the run state (R32). -/
theorem Effect.state_cases :
    (i = .halt ∧ t.state = .HALT) ∨ ((∃ x, i = .read x) ∧ t.state = .WAIT)
      ∨ (i ≠ .halt ∧ (¬ ∃ x, i = .read x) ∧ t.state = s.state) := by
  cases effect with
  | halts isHalt => exact .inl ⟨isHalt, rfl⟩
  | waits x isRead => exact .inr (.inl ⟨⟨x, isRead⟩, rfl⟩)
  | emits _ isWrite => exact .inr (.inr ⟨by simp [isWrite], by simp [isWrite], rfl⟩)
  | nothing notHalt notRead => exact .inr (.inr ⟨notHalt, not_exists.mpr notRead, rfl⟩)
  | writesRegister _ _ writes =>
    refine .inr (.inr ⟨?_, ?_, rfl⟩)
    · rintro rfl
      cases writes
    · rintro ⟨x, rfl⟩
      cases writes
  | stores _ _ isStore =>
    obtain ⟨x, n, rfl | rfl⟩ := isStore
    · exact .inr (.inr ⟨nofun, nofun, rfl⟩)
    · exact .inr (.inr ⟨nofun, nofun, rfl⟩)
  | jumps _ _ _ notHalt notRead => exact .inr (.inr ⟨notHalt, not_exists.mpr notRead, rfl⟩)
  | calls _ _ isCall => exact .inr (.inr ⟨by simp [isCall], by simp [isCall], rfl⟩)

end

theorem storedAddress_eq_none {i : Instr} (notStore : ¬ ∃ x y, i = .storen x y ∨ i = .storer x y) (s : State) :
    storedAddress i s = none := by
  unfold storedAddress
  split
  · exact absurd ⟨_, _, .inl rfl⟩ notStore
  · exact absurd ⟨_, _, .inr rfl⟩ notStore
  · rfl

/-- An instruction that stores nothing leaves all of memory. -/
theorem Effect.sameMemory {i : Instr} {s t : State} (effect : Effect i s t)
    (notStore : ¬ ∃ x y, i = .storen x y ∨ i = .storer x y) : s.sameMemory t := fun _ =>
  effect.read_eq fun a address => by
    rw [storedAddress_eq_none notStore] at address
    cases address

/-- A dispatched Operation runs from the fetched state, and has an effect or leaves the fault. -/
theorem exec_dispatched_cases {s u t : State} {i : Instr} (dispatched : prepare s = .run i u) (executed : exec i u = .next t) :
    u = s.fetched ∧ (Effect i s.fetched t ∨ ∃ k, t = s.afterFault k) := by
  obtain ⟨-, -, -, -, rfl⟩ := prepare_run dispatched
  refine ⟨rfl, (exec_cases executed).imp_right ?_⟩
  rintro ⟨k, rfl⟩
  exact ⟨k, takeFault_fetched s k⟩

/-- Settles O31: an instruction with a destination is no store, no `write` and no `read`. -/
theorem registerInstructionsFrame : Obligations.RegisterInstructionsFrame := by
  intro s u t i x dispatched writes executed
  rcases exec_dispatched_cases dispatched executed with ⟨-, effect | ⟨k, rfl⟩⟩
  · have others (j : Nat) (_ : j < 16) (other : j ≠ x) : t.reg j = s.reg j :=
      effect.reg_eq (by simp [writes, other.symm])
    have notStore : ¬ ∃ x y, i = .storen x y ∨ i = .storer x y := by
      rintro ⟨y, n, rfl | rfl⟩ <;> cases writes
    have notWrite : ∀ y, i ≠ .write y := by
      rintro y rfl
      cases writes
    have notRead : ∀ y, i ≠ .read y := by
      rintro y rfl
      cases writes
    exact ⟨others, reg_zero t, effect.sameMemory notStore, effect.output_eq notWrite, effect.readTarget_eq notRead,
      effect.boundary_eq, effect.mode_eq⟩
  · exact ⟨fun _ _ _ => rfl, rfl, fun _ => rfl, rfl, rfl, rfl, rfl⟩

/-- Settles O32: a store has no destination and is no `write` and no `read`. -/
theorem storeInstructionsFrame : Obligations.StoreInstructionsFrame := by
  intro s u t i dispatched stores executed
  obtain ⟨rfl, effect | ⟨k, rfl⟩⟩ := exec_dispatched_cases dispatched executed
  · have noDestination : destination i = none := by
      obtain ⟨x, y, rfl | rfl⟩ := stores <;> rfl
    have notWrite : ∀ x, i ≠ .write x := by
      rintro x rfl
      simp at stores
    have notRead : ∀ x, i ≠ .read x := by
      rintro x rfl
      simp at stores
    refine ⟨fun j _ => effect.reg_eq (by simp [noDestination]), fun a address b other => ?_, effect.output_eq notWrite,
      effect.readTarget_eq notRead, effect.boundary_eq, effect.mode_eq⟩
    refine effect.read_eq fun a' address' => ?_
    rw [address] at address'
    cases address'
    exact other
  · exact ⟨fun _ _ => rfl, fun _ _ _ _ => rfl, rfl, rfl, rfl, rfl⟩

/-- Settles O33: without a destination and a store, no register and no cell is written. -/
theorem otherInstructionsFrame : Obligations.OtherInstructionsFrame := by
  intro s u t i dispatched noDestination notStore executed
  rcases exec_dispatched_cases dispatched executed with ⟨-, effect | ⟨k, rfl⟩⟩
  · have output : t.output = s.output ∨ ∃ x, i = .write x := by
      rcases effect.output_cases with ⟨x, isWrite, -⟩ | ⟨-, kept⟩
      · exact .inr ⟨x, isWrite⟩
      · exact .inl kept
    exact ⟨fun j _ => effect.reg_eq (by simp [noDestination]), effect.sameMemory notStore, output, effect.readTarget_cases,
      effect.boundary_eq, effect.mode_eq⟩
  · exact ⟨fun _ _ => rfl, fun _ => rfl, .inl rfl, .inl rfl, rfl, rfl⟩

end Sys2Proof.Machine
end

section
/-! Where a step leads (R32, R120, R135, R200), by everything a step can do. -/

namespace Sys2Proof.Machine

/-- Settles O36: none of the four states is active. -/
theorem inactiveStepChangesNothing : Obligations.InactiveStepChangesNothing := by
  rintro s (wait | empty | halt | error)
  · exact step_inactive (congrArg RunState.isActive wait)
  · exact step_inactive (congrArg RunState.isActive empty)
  · exact step_inactive (congrArg RunState.isActive halt)
  · exact step_inactive (congrArg RunState.isActive error)

/-- Settles O38: neither a refused call nor an effect leads into ERROR. -/
theorem faultLeavesNothingButError : Obligations.FaultLeavesNothingButError := by
  intro s t notError stepped isError
  rcases step_cases stepped with ⟨-, rfl⟩ | ⟨-, k, same⟩ | ⟨-, i, -, effect⟩
  · exact absurd isError notError
  · exact ⟨k, same⟩
  · exact absurd isError (effect.state_ne_error nofun)

/-- Settles O39: the Operation starts in RUN. -/
theorem stepFollowsTheRunStateDiagram : Obligations.StepFollowsTheRunStateDiagram := by
  intro s u t i dispatched executed
  rcases exec_dispatched_cases dispatched executed with ⟨-, effect | ⟨k, rfl⟩⟩
  · refine .inr (effect.state_cases.imp_right (Or.imp_right ?_))
    rintro ⟨notHalt, notRead, running⟩
    exact ⟨notHalt, notRead, congrArg RunState.isActive running⟩
  · exact .inl rfl

/-- Only `halt` leads from an active state to HALT (R32). -/
theorem prepare_halt_of_step {s t : State} (active : s.state.isActive = true) (stepped : step s = .next t)
    (halted : t.state = .HALT) : prepare s = .run .halt s.fetched := by
  rcases step_cases stepped with ⟨inactive, -⟩ | ⟨-, k, rfl⟩ | ⟨-, i, dispatched, effect⟩
  · simp [active] at inactive
  · cases halted
  · rcases effect.state_cases with ⟨rfl, -⟩ | ⟨-, waiting⟩ | ⟨-, -, running⟩
    · exact dispatched
    · rw [waiting] at halted
      cases halted
    · rw [running] at halted
      cases halted

/-- Of the valid cells only 0 holds the word of `halt` (R96, R123). -/
theorem eq_zero_of_decode_halt {v : Int} (valid : VALID v) (decodes : decode (u16 v) = .ok .halt) : v = 0 := by
  obtain ⟨word, -⟩ := encodeInvertsDecode (u16 v) .halt decodes
  have residue : v % 65536 = 0 := by rw [← u16_toNat, ← word, encode_halt]; rfl
  rw [valid_iff] at valid
  omega

/-- Settles O40: the step is `halt` from the fetched state, and the cell it fetched is 0. -/
theorem haltedStateIsAsStated : Obligations.HaltedStateIsAsStated := by
  intro s t inv active stepped halted
  have dispatched := prepare_halt_of_step active stepped halted
  obtain ⟨-, -, -, decodes, -⟩ := prepare_run dispatched
  have cell := eq_zero_of_decode_halt (inv.read_valid s.pc) decodes
  rw [step_run dispatched, exec_halt (s := s.fetched) inv.pcInRange] at stepped
  cases stepped
  exact ⟨rfl, rfl, cell, cell, fun _ _ => rfl, fun _ => rfl⟩

/-- Settles O43: a SAFE-mode store lies past the code, and the cycle dispatches only inside it. -/
theorem safeModeKeepsTheCodeSegment : Obligations.SafeModeKeepsTheCodeSegment := by
  intro s t safe stepped
  constructor
  · intro b inCode
    rcases step_cases stepped with ⟨-, rfl⟩ | ⟨-, k, rfl⟩ | ⟨-, i, -, effect⟩
    · rfl
    · rfl
    · cases effect with
      | stores a v _ _ _ _ unprotected =>
        exact Memory.read_write_other s.ram a v (Nat.lt_of_lt_of_le inCode (unprotected safe)).ne
      | _ => rfl
  · intro i u dispatched
    obtain ⟨-, inside, -⟩ := prepare_run dispatched
    exact inside safe

end Sys2Proof.Machine
end

section
/-! SAFE mode only adds faults (R33): what an Operation does without a fault it does in UNSAFE mode too, built up along the accessors. -/

namespace Sys2Proof.Machine

/-- The same state on an UNSAFE machine. -/
def State.unprotected (s : State) : State := { s with mode := .UNSAFE }

/-- What `op` does without a fault it also does on an UNSAFE machine. -/
def WorksUnprotected (op : State → Except Fault State) : Prop :=
  ∀ s t, op s = .ok t → op s.unprotected = .ok t.unprotected

namespace WorksUnprotected

/-- What is read first must not depend on the mode. -/
theorem bind {α : Type} {source : State → Except Fault α} {op : α → State → Except Fault State}
    (sameSource : ∀ s, source s.unprotected = source s) (works : ∀ a, WorksUnprotected (op a)) :
    WorksUnprotected (fun s => source s >>= fun a => op a s) := by
  intro s t done
  obtain ⟨a, read, done⟩ := bind_ok done
  simp only [sameSource, read]
  exact works a s t done

theorem andThen {first second : State → Except Fault State} (worksFirst : WorksUnprotected first)
    (worksSecond : WorksUnprotected second) : WorksUnprotected (fun s => first s >>= second) := by
  intro s t done
  obtain ⟨u, doneFirst, done⟩ := bind_ok done
  simp only [worksFirst s u doneFirst]
  exact worksSecond u t done

theorem ok {f : State → State} (commutes : ∀ s, f s.unprotected = (f s).unprotected) :
    WorksUnprotected (fun s => .ok (f s)) := by
  rintro s _ ⟨⟩
  exact congrArg Except.ok (commutes s)

section
variable {op : Int → State → Except Fault State} (works : ∀ v, WorksUnprotected (op v))
include works

theorem afterSource (r : Nat) : WorksUnprotected (fun s => sourceReg r s >>= fun v => op v s) :=
  bind (fun _ => rfl) works

theorem afterRead (a : Int) : WorksUnprotected (fun s => memRead a s >>= fun v => op v s) :=
  bind (fun _ => rfl) works

end

theorem destReg (x : Nat) (v : Int) : WorksUnprotected (destReg x v) := by
  intro s t done
  obtain ⟨inRange, valid, written⟩ := destReg_ok done
  rw [destReg_valid s.unprotected inRange valid]
  rcases written with ⟨rfl, rfl⟩ | ⟨nonzero, rfl⟩
  · rfl
  · rw [if_neg nonzero]
    rfl

theorem link (x : Nat) : WorksUnprotected (fun s => Machine.destReg x s.pc s) := fun s => destReg x s.pc s

theorem memWrite (a v : Int) : WorksUnprotected (memWrite a v) := by
  intro s t done
  obtain ⟨low, high, valid, -, rfl⟩ := memWrite_ok done
  obtain ⟨n, rfl⟩ := Int.eq_ofNat_of_zero_le low
  exact memWrite_free s.unprotected (Int.ofNat_lt.mp high) valid nofun

theorem jump (target : Int) : WorksUnprotected (jump target) := by
  intro s t done
  obtain ⟨⟨low, high, -⟩, rfl⟩ := jump_ok done
  obtain ⟨n, rfl⟩ := Int.eq_ofNat_of_zero_le low
  exact jump_target (s := s.unprotected) ⟨low, high, nofun⟩

theorem jumpIf (c : Condition) (x n : Nat) : WorksUnprotected (jumpIf c x n) := by
  refine afterSource (fun v => ?_) x
  split
  · exact jump n
  · exact ok fun _ => rfl

theorem threeRegister (f : Int → Int → Except Fault Int) (x y z : Nat) : WorksUnprotected (threeRegister f x y z) :=
  afterSource (fun _ => afterSource (fun _ => bind (fun _ => rfl) (destReg x)) z) y

theorem halt : WorksUnprotected (fun s => setPc s.lastPc (s.putState .HALT)) := by
  intro s t done
  obtain ⟨-, high, rfl⟩ := setPc_ok done
  exact setPc_nat (s.unprotected.putState .HALT) (Int.ofNat_lt.mp high)

/-- Every Operation is the commit of an outcome that works unprotected. -/
theorem exec_eq_finish (i : Instr) : ∃ op, WorksUnprotected op ∧ ∀ s, exec i s = finish s (op s) := by
  cases i with
  | halt => exact ⟨_, halt, fun _ => rfl⟩
  | read x => exact ⟨_, ok (f := fun s => (s.putReadTarget x).putState .WAIT) fun _ => rfl, fun _ => rfl⟩
  | write x => exact ⟨_, afterSource (fun v => ok (f := State.emit v) fun _ => rfl) x, fun _ => rfl⟩
  | jumpr x => exact ⟨_, afterSource jump x, fun _ => rfl⟩
  | setn x n => exact ⟨_, destReg x n, fun _ => rfl⟩
  | loadn x n => exact ⟨_, afterRead (destReg x) n, fun _ => rfl⟩
  | storen x n => exact ⟨_, afterSource (memWrite n) x, fun _ => rfl⟩
  | loadr x y => exact ⟨_, afterSource (fun a => afterRead (destReg x) a) y, fun _ => rfl⟩
  | storer x y => exact ⟨_, afterSource (fun a => afterSource (memWrite a) x) y, fun _ => rfl⟩
  | addn x n => exact ⟨_, afterSource (fun a => destReg x (a + n)) x, fun _ => rfl⟩
  | nop => exact ⟨_, ok (f := id) fun _ => rfl, fun _ => rfl⟩
  | copy x y => exact ⟨_, afterSource (destReg x) y, fun _ => rfl⟩
  | add x y z => exact ⟨_, threeRegister _ x y z, fun _ => rfl⟩
  | neg x y => exact ⟨_, afterSource (fun a => destReg x (-a)) y, fun _ => rfl⟩
  | sub x y z => exact ⟨_, threeRegister _ x y z, fun _ => rfl⟩
  | mul x y z => exact ⟨_, threeRegister _ x y z, fun _ => rfl⟩
  | div x y z => exact ⟨_, threeRegister _ x y z, fun _ => rfl⟩
  | mod x y z => exact ⟨_, threeRegister _ x y z, fun _ => rfl⟩
  | jumpn n => exact ⟨_, jump n, fun _ => rfl⟩
  | calln x n => exact ⟨_, andThen (link x) (jump n), fun _ => rfl⟩
  | jeqzn x n => exact ⟨_, jumpIf .eqz x n, fun _ => rfl⟩
  | jnezn x n => exact ⟨_, jumpIf .nez x n, fun _ => rfl⟩
  | jgtzn x n => exact ⟨_, jumpIf .gtz x n, fun _ => rfl⟩
  | jltzn x n => exact ⟨_, jumpIf .ltz x n, fun _ => rfl⟩

end WorksUnprotected

theorem exec_unprotected {i : Instr} {s t : State} (executed : exec i s = .next t) (noFault : t.state ≠ .ERROR) :
    exec i s.unprotected = .next t.unprotected := by
  obtain ⟨op, works, meaning⟩ := WorksUnprotected.exec_eq_finish i
  rw [meaning] at executed ⊢
  cases outcome : op s with
  | error k =>
    rw [outcome, finish_error] at executed
    cases executed
    exact absurd (takeFault_state s k) noFault
  | ok u =>
    rw [outcome, finish_ok] at executed
    cases executed
    rw [works s t outcome, finish_ok]

theorem fetched_unprotected (s : State) : s.unprotected.fetched = s.fetched.unprotected := rfl

theorem step_unprotected {s t : State} (stepped : step s = .next t) (noFault : t.state ≠ .ERROR) :
    step s.unprotected = .next t.unprotected := by
  rcases step_cases stepped with ⟨inactive, rfl⟩ | ⟨-, k, rfl⟩ | ⟨active, i, dispatched, -⟩
  · exact step_inactive (s := t.unprotected) inactive
  · exact absurd rfl noFault
  · obtain ⟨-, -, below, decodes, -⟩ := prepare_run dispatched
    rw [step_run dispatched] at stepped
    rw [step_run (prepare_of_decode (s := s.unprotected) active nofun below decodes), fetched_unprotected]
    exact exec_unprotected stepped noFault

/-- Settles O42: the UNSAFE machine of the statement is the SAFE one unprotected. -/
theorem safeModeOnlyAddsFaults : Obligations.SafeModeOnlyAddsFaults :=
  fun s _ => step_unprotected (s := { s with mode := .SAFE })

end Sys2Proof.Machine
end
